-- ==== Sys2Proof/Word.lean ====
section
/-! DEFINITION. The word types of I24U: byte, command word, wide word, cell index, and the 3-byte value cell. -/

namespace Sys2Proof

/-- A byte is 8 bits, bit 7 the most significant (00_scope.md R6). -/
abbrev Byte := BitVec 8

/-- A command word, `CMDW = 16` bits (30_encoding.md R60). -/
abbrev CmdWord := BitVec 16

/-- The contents of the wide register, `WIDE = 128` bits (10_state.md R26). -/
abbrev Wide := BitVec 128

/-- The index of a value cell, `NV = 4` cells (10_state.md R24, 30_encoding.md R61). -/
abbrev VIdx := Fin 4

/-- A value cell: exactly three bytes, `b0` least significant, `b2` most significant with the sign
bit in its bit 7 (10_state.md R20). Every triple of bytes is a valid value (R22). -/
structure Cell24 where
  b0 : Byte
  b1 : Byte
  b2 : Byte
deriving DecidableEq, Repr

end Sys2Proof
end

