-- ==== Sys2Proof/Config.lean ====
section
/-! DEFINITION. The implementation parameters of 00_scope.md R5: the two open functions, without a body,
and the shift policy, which the spec fixes. -/

namespace Sys2Proof

/-- `F2I32`, the conversion of a binary32 bit pattern to a 32-bit signed integer: OPEN, a total
function of the source bits alone (44_float.md R136, D16). No value of it can be proved. Log entry 3. -/
opaque Config.f2i32 : BitVec 32 → BitVec 32

/-- `F2I64`, the conversion of a binary64 bit pattern to a 32-bit signed integer: OPEN, a total
function of the source bits alone (44_float.md R136, D16). No value of it can be proved. Log entry 3. -/
opaque Config.f2i64 : BitVec 64 → BitVec 32

/-- The two policies that 93_implementation_defined.md U1 names for a shift amount outside 0 to 31. -/
inductive ShiftOor where
  /-- the amount used is the low five bits of the amount -/
  | mask5
  /-- the result is the zero cell -/
  | zeroResult
deriving DecidableEq, Repr

/-- `SHIFT_OOR` is `mask5` (00_scope.md R5, 47_bitwise_shift.md R165, D14). Log entry 4. -/
def Config.shiftOor : ShiftOor := .mask5

end Sys2Proof
end

