-- ==== Sys2Proof/Syntax.lean ====
section
/-! DEFINITION. The commands of I24U (30_encoding.md R64), one constructor per row of spec/opcode_table.json,
the formats (R62), the host moves (10_state.md R28) and the pseudo-instructions (R68). -/

namespace Sys2Proof

/-- The 47 commands. A register operand is the index of one of the four value cells; a constructor
has exactly the fields its format uses, in the order `rd ra rb rc` (30_encoding.md R62, R64). -/
inductive Instr where
  /-- `NOP`, format Z, R176: no operation -/
  | nop
  /-- `MOV`, format DA, R175: copy -/
  | mov (rd ra : VIdx)
  /-- `ZERO`, format D, R174: default value -/
  | zero (rd : VIdx)
  /-- `UNPKLE`, format D, R81: `T` to a cell, little-endian -/
  | unpkle (rd : VIdx)
  /-- `UNPKBE`, format D, R82: `T` to a cell, big-endian -/
  | unpkbe (rd : VIdx)
  /-- `PKLE`, format A, R83: cell to `T`, little-endian -/
  | pkle (ra : VIdx)
  /-- `PKBE`, format A, R84: cell to `T`, big-endian -/
  | pkbe (ra : VIdx)
  /-- `ISNEG`, format A, R91: sign test -/
  | isneg (ra : VIdx)
  /-- `ASI8`, format A, R93: signed 8-bit result in `W` -/
  | asi8 (ra : VIdx)
  /-- `ASI16`, format A, R94: signed 16-bit result in `W` -/
  | asi16 (ra : VIdx)
  /-- `ASI32`, format A, R95: signed 32-bit result in `W` -/
  | asi32 (ra : VIdx)
  /-- `ASI64`, format A, R96: signed 64-bit result in `W` -/
  | asi64 (ra : VIdx)
  /-- `ASI128`, format A, R97: signed 128-bit result in `W` -/
  | asi128 (ra : VIdx)
  /-- `ASU8`, format A, R98: unsigned 8-bit result in `W` -/
  | asu8 (ra : VIdx)
  /-- `ASU16`, format A, R99: unsigned 16-bit result in `W` -/
  | asu16 (ra : VIdx)
  /-- `ASU32`, format A, R100: unsigned 32-bit result in `W` -/
  | asu32 (ra : VIdx)
  /-- `ASU64`, format A, R101: unsigned 64-bit result in `W` -/
  | asu64 (ra : VIdx)
  /-- `ASU128`, format A, R102: unsigned 128-bit result in `W` -/
  | asu128 (ra : VIdx)
  /-- `FROMI8`, format D, R112: from signed 8-bit -/
  | fromi8 (rd : VIdx)
  /-- `FROMI16`, format D, R113: from signed 16-bit -/
  | fromi16 (rd : VIdx)
  /-- `FROMI32`, format D, R114: from signed 32-bit -/
  | fromi32 (rd : VIdx)
  /-- `FROMI64`, format D, R115: from signed 64-bit -/
  | fromi64 (rd : VIdx)
  /-- `FROMI128`, format D, R116: from signed 128-bit -/
  | fromi128 (rd : VIdx)
  /-- `FROMU8`, format D, R117: from unsigned 8-bit -/
  | fromu8 (rd : VIdx)
  /-- `FROMU16`, format D, R118: from unsigned 16-bit -/
  | fromu16 (rd : VIdx)
  /-- `FROMU32`, format D, R119: from unsigned 32-bit -/
  | fromu32 (rd : VIdx)
  /-- `FROMU64`, format D, R120: from unsigned 64-bit -/
  | fromu64 (rd : VIdx)
  /-- `FROMU128`, format D, R121: from unsigned 128-bit -/
  | fromu128 (rd : VIdx)
  /-- `FROMU24`, format D, R123: from the unsigned 24-bit sibling -/
  | fromu24 (rd : VIdx)
  /-- `ADD`, format DAB, R146: sum -/
  | add (rd ra rb : VIdx)
  /-- `SUB`, format DAB, R147: difference -/
  | sub (rd ra rb : VIdx)
  /-- `MUL`, format DAB, R148: product -/
  | mul (rd ra rb : VIdx)
  /-- `DIV`, format DAB, R149: quotient -/
  | div (rd ra rb : VIdx)
  /-- `REM`, format DAB, R150: remainder -/
  | rem (rd ra rb : VIdx)
  /-- `NEG`, format DA, R151: unary minus -/
  | neg (rd ra : VIdx)
  /-- `AND`, format DAB, R161: bitwise and -/
  | and (rd ra rb : VIdx)
  /-- `OR`, format DAB, R162: bitwise or -/
  | or (rd ra rb : VIdx)
  /-- `XOR`, format DAB, R163: bitwise exclusive or -/
  | xor (rd ra rb : VIdx)
  /-- `NOT`, format DA, R164: bitwise complement -/
  | not (rd ra : VIdx)
  /-- `SHL`, format DAB, R166: shift left -/
  | shl (rd ra rb : VIdx)
  /-- `SHR`, format DAB, R167: arithmetic shift right -/
  | shr (rd ra rb : VIdx)
  /-- `CMP`, format AB, R141: signed order -/
  | cmp (ra rb : VIdx)
  /-- `CLAMP`, format DABC, R171: clamp between two bounds -/
  | clamp (rd ra rb rc : VIdx)
  /-- `ASF32`, format A, R131: to binary32 -/
  | asf32 (ra : VIdx)
  /-- `ASF64`, format A, R132: to binary64 -/
  | asf64 (ra : VIdx)
  /-- `FROMF32`, format D, R134: from binary32 -/
  | fromf32 (rd : VIdx)
  /-- `FROMF64`, format D, R135: from binary64 -/
  | fromf64 (rd : VIdx)
deriving DecidableEq, Repr

/-- The seven formats: which register fields a command uses (30_encoding.md R62). -/
inductive Format where
  | z
  | d
  | a
  | da
  | ab
  | dab
  | dabc
deriving DecidableEq, Repr

/-- The four moves a host can make (10_state.md R28, R33; 70_reset_and_hazards.md R200). -/
inductive HostMove where
  /-- issue one command word, `Cmd(word)` -/
  | cmd (w : CmdWord)
  /-- write all three lanes, `HostWriteT(t0, t1, t2)` -/
  | hostWriteT (y0 y1 y2 : Byte)
  /-- write all 128 bits of `W`, `HostWriteW(w)` -/
  | hostWriteW (x : Wide)
  /-- `Reset` -/
  | reset
deriving DecidableEq, Repr

/-- The twelve in-place spellings of the assembler (30_encoding.md R68): other names of core commands. -/
inductive Pseudo where
  | addIp (rd rb : VIdx)
  | subIp (rd rb : VIdx)
  | mulIp (rd rb : VIdx)
  | divIp (rd rb : VIdx)
  | remIp (rd rb : VIdx)
  | andIp (rd rb : VIdx)
  | orIp (rd rb : VIdx)
  | xorIp (rd rb : VIdx)
  | shlIp (rd rb : VIdx)
  | shrIp (rd rb : VIdx)
  | negIp (rd : VIdx)
  | notIp (rd : VIdx)
deriving DecidableEq, Repr

end Sys2Proof
end

