-- ==== Sys2Proof/WellFormed.lean ====
section
/-! DEFINITION. Well-formedness. A term of `Instr` is well formed by its type: each register field is a `Fin 4`,
and "all four values are legal in every field a format uses" (30_encoding.md R61), so no ill-formed
instruction can be written. What can be ill formed is a command WORD (R63, R65) and a program that issues one.
The check below is written from R62 and the opcode list of R64 by format, apart from the decoder's table. -/

namespace Sys2Proof

/-- Opcodes of format `D` (30_encoding.md R64). -/
def opsD : List Nat :=
  [0x02, 0x10, 0x11, 0x30, 0x31, 0x32, 0x33, 0x34, 0x38, 0x39, 0x3A, 0x3B, 0x3C, 0x3D, 0x78, 0x79]

/-- Opcodes of format `A` (30_encoding.md R64). -/
def opsA : List Nat :=
  [0x12, 0x13, 0x14, 0x20, 0x21, 0x22, 0x23, 0x24, 0x28, 0x29, 0x2A, 0x2B, 0x2C, 0x70, 0x71]

/-- Opcodes of format `DA` (30_encoding.md R64). -/
def opsDA : List Nat := [0x01, 0x45, 0x53]

/-- Opcodes of format `DAB` (30_encoding.md R64). -/
def opsDAB : List Nat := [0x40, 0x41, 0x42, 0x43, 0x44, 0x50, 0x51, 0x52, 0x54, 0x55]

/-- The format of an assigned opcode; none for the 209 unassigned ones (30_encoding.md R64, R65). -/
def formatOfOp (op : Nat) : Option Format :=
  if op = 0x00 then some .z
  else if op ∈ opsD then some .d
  else if op ∈ opsA then some .a
  else if op ∈ opsDA then some .da
  else if op = 0x60 then some .ab
  else if op ∈ opsDAB then some .dab
  else if op = 0x61 then some .dabc
  else none

/-- First check: the word's opcode is one of the 47 values (30_encoding.md R65). -/
def opcodeAssigned (w : CmdWord) : Bool :=
  (formatOfOp (w.toNat / 256)).isSome

/-- The register fields a format uses, in the order `rd ra rb rc` (30_encoding.md R62). -/
def Format.uses : Format → Bool × Bool × Bool × Bool
  | .z => (false, false, false, false)
  | .d => (true, false, false, false)
  | .a => (false, true, false, false)
  | .da => (true, true, false, false)
  | .ab => (false, true, true, false)
  | .dab => (true, true, true, false)
  | .dabc => (true, true, true, true)

/-- Second check: every field the format of the word's opcode does not use is zero (30_encoding.md R61, R63). -/
def unusedFieldsZero (w : CmdWord) : Bool :=
  let n := w.toNat
  match formatOfOp (n / 256) with
  | none => true
  | some f =>
    let (d, a, b, c) := f.uses
    (d || n / 64 % 4 == 0) && (a || n / 16 % 4 == 0) && (b || n / 4 % 4 == 0) && (c || n % 4 == 0)

/-- A command word is legal when both checks pass (30_encoding.md R65). -/
def wellFormedWord (w : CmdWord) : Bool :=
  opcodeAssigned w && unusedFieldsZero w

/-- A host move is well formed when, if it issues a command word, the word is legal. -/
def wellFormedMove : HostMove → Bool
  | .cmd w => wellFormedWord w
  | .hostWriteT _ _ _ => true
  | .hostWriteW _ => true
  | .reset => true

/-- A program is well formed when each of its moves is. -/
def wellFormedProgram (p : List HostMove) : Bool :=
  p.all wellFormedMove

end Sys2Proof
end

