-- ==== Sys2Proof/Decode.lean ====
section
/-! DEFINITION. The opcode map, the decoder and the encoder of the command words (30_encoding.md R60 to R66). -/

namespace Sys2Proof

/-- The bits that are fixed for a command of the format: the opcode and the must-be-zero fields
(30_encoding.md R62). -/
def formatMask : Format → CmdWord
  | .z => 0xFFFF
  | .d => 0xFF3F
  | .a => 0xFFCF
  | .da => 0xFF0F
  | .ab => 0xFFC3
  | .dab => 0xFF03
  | .dabc => 0xFF00

/-- One row of the opcode map (30_encoding.md R64): mnemonic, opcode byte, format, and the command that
the four register fields select (a format's unused fields are ignored here; the decoder requires them zero). -/
structure OpcodeRow where
  mnemonic : List Char
  op : BitVec 8
  format : Format
  build : VIdx → VIdx → VIdx → VIdx → Instr

/-- Opcode map, family 0 (30_encoding.md R64). -/
def opcodesMisc : List OpcodeRow := [
  ⟨['N', 'O', 'P'], 0x00, .z, fun _ _ _ _ => .nop⟩,
  ⟨['M', 'O', 'V'], 0x01, .da, fun rd ra _ _ => .mov rd ra⟩,
  ⟨['Z', 'E', 'R', 'O'], 0x02, .d, fun rd _ _ _ => .zero rd⟩]

/-- Opcode map, family 1 (30_encoding.md R64). -/
def opcodesPack : List OpcodeRow := [
  ⟨['U', 'N', 'P', 'K', 'L', 'E'], 0x10, .d, fun rd _ _ _ => .unpkle rd⟩,
  ⟨['U', 'N', 'P', 'K', 'B', 'E'], 0x11, .d, fun rd _ _ _ => .unpkbe rd⟩,
  ⟨['P', 'K', 'L', 'E'], 0x12, .a, fun _ ra _ _ => .pkle ra⟩,
  ⟨['P', 'K', 'B', 'E'], 0x13, .a, fun _ ra _ _ => .pkbe ra⟩,
  ⟨['I', 'S', 'N', 'E', 'G'], 0x14, .a, fun _ ra _ _ => .isneg ra⟩]

/-- Opcode map, family 2 (30_encoding.md R64). -/
def opcodesWiden : List OpcodeRow := [
  ⟨['A', 'S', 'I', '8'], 0x20, .a, fun _ ra _ _ => .asi8 ra⟩,
  ⟨['A', 'S', 'I', '1', '6'], 0x21, .a, fun _ ra _ _ => .asi16 ra⟩,
  ⟨['A', 'S', 'I', '3', '2'], 0x22, .a, fun _ ra _ _ => .asi32 ra⟩,
  ⟨['A', 'S', 'I', '6', '4'], 0x23, .a, fun _ ra _ _ => .asi64 ra⟩,
  ⟨['A', 'S', 'I', '1', '2', '8'], 0x24, .a, fun _ ra _ _ => .asi128 ra⟩,
  ⟨['A', 'S', 'U', '8'], 0x28, .a, fun _ ra _ _ => .asu8 ra⟩,
  ⟨['A', 'S', 'U', '1', '6'], 0x29, .a, fun _ ra _ _ => .asu16 ra⟩,
  ⟨['A', 'S', 'U', '3', '2'], 0x2A, .a, fun _ ra _ _ => .asu32 ra⟩,
  ⟨['A', 'S', 'U', '6', '4'], 0x2B, .a, fun _ ra _ _ => .asu64 ra⟩,
  ⟨['A', 'S', 'U', '1', '2', '8'], 0x2C, .a, fun _ ra _ _ => .asu128 ra⟩]

/-- Opcode map, family 3 (30_encoding.md R64). -/
def opcodesConstruct : List OpcodeRow := [
  ⟨['F', 'R', 'O', 'M', 'I', '8'], 0x30, .d, fun rd _ _ _ => .fromi8 rd⟩,
  ⟨['F', 'R', 'O', 'M', 'I', '1', '6'], 0x31, .d, fun rd _ _ _ => .fromi16 rd⟩,
  ⟨['F', 'R', 'O', 'M', 'I', '3', '2'], 0x32, .d, fun rd _ _ _ => .fromi32 rd⟩,
  ⟨['F', 'R', 'O', 'M', 'I', '6', '4'], 0x33, .d, fun rd _ _ _ => .fromi64 rd⟩,
  ⟨['F', 'R', 'O', 'M', 'I', '1', '2', '8'], 0x34, .d, fun rd _ _ _ => .fromi128 rd⟩,
  ⟨['F', 'R', 'O', 'M', 'U', '8'], 0x38, .d, fun rd _ _ _ => .fromu8 rd⟩,
  ⟨['F', 'R', 'O', 'M', 'U', '1', '6'], 0x39, .d, fun rd _ _ _ => .fromu16 rd⟩,
  ⟨['F', 'R', 'O', 'M', 'U', '3', '2'], 0x3A, .d, fun rd _ _ _ => .fromu32 rd⟩,
  ⟨['F', 'R', 'O', 'M', 'U', '6', '4'], 0x3B, .d, fun rd _ _ _ => .fromu64 rd⟩,
  ⟨['F', 'R', 'O', 'M', 'U', '1', '2', '8'], 0x3C, .d, fun rd _ _ _ => .fromu128 rd⟩,
  ⟨['F', 'R', 'O', 'M', 'U', '2', '4'], 0x3D, .d, fun rd _ _ _ => .fromu24 rd⟩]

/-- Opcode map, family 4 (30_encoding.md R64). -/
def opcodesArith : List OpcodeRow := [
  ⟨['A', 'D', 'D'], 0x40, .dab, fun rd ra rb _ => .add rd ra rb⟩,
  ⟨['S', 'U', 'B'], 0x41, .dab, fun rd ra rb _ => .sub rd ra rb⟩,
  ⟨['M', 'U', 'L'], 0x42, .dab, fun rd ra rb _ => .mul rd ra rb⟩,
  ⟨['D', 'I', 'V'], 0x43, .dab, fun rd ra rb _ => .div rd ra rb⟩,
  ⟨['R', 'E', 'M'], 0x44, .dab, fun rd ra rb _ => .rem rd ra rb⟩,
  ⟨['N', 'E', 'G'], 0x45, .da, fun rd ra _ _ => .neg rd ra⟩]

/-- Opcode map, family 5 (30_encoding.md R64). -/
def opcodesBitwise : List OpcodeRow := [
  ⟨['A', 'N', 'D'], 0x50, .dab, fun rd ra rb _ => .and rd ra rb⟩,
  ⟨['O', 'R'], 0x51, .dab, fun rd ra rb _ => .or rd ra rb⟩,
  ⟨['X', 'O', 'R'], 0x52, .dab, fun rd ra rb _ => .xor rd ra rb⟩,
  ⟨['N', 'O', 'T'], 0x53, .da, fun rd ra _ _ => .not rd ra⟩,
  ⟨['S', 'H', 'L'], 0x54, .dab, fun rd ra rb _ => .shl rd ra rb⟩,
  ⟨['S', 'H', 'R'], 0x55, .dab, fun rd ra rb _ => .shr rd ra rb⟩]

/-- Opcode map, family 6 (30_encoding.md R64). -/
def opcodesOrder : List OpcodeRow := [
  ⟨['C', 'M', 'P'], 0x60, .ab, fun _ ra rb _ => .cmp ra rb⟩,
  ⟨['C', 'L', 'A', 'M', 'P'], 0x61, .dabc, fun rd ra rb rc => .clamp rd ra rb rc⟩]

/-- Opcode map, family 7 (30_encoding.md R64). -/
def opcodesFloat : List OpcodeRow := [
  ⟨['A', 'S', 'F', '3', '2'], 0x70, .a, fun _ ra _ _ => .asf32 ra⟩,
  ⟨['A', 'S', 'F', '6', '4'], 0x71, .a, fun _ ra _ _ => .asf64 ra⟩,
  ⟨['F', 'R', 'O', 'M', 'F', '3', '2'], 0x78, .d, fun rd _ _ _ => .fromf32 rd⟩,
  ⟨['F', 'R', 'O', 'M', 'F', '6', '4'], 0x79, .d, fun rd _ _ _ => .fromf64 rd⟩]

/-- The opcode map, 47 rows (30_encoding.md R64). -/
def opcodeMap : List OpcodeRow :=
  opcodesMisc ++ opcodesPack ++ opcodesWiden ++ opcodesConstruct ++ opcodesArith ++ opcodesBitwise ++ opcodesOrder ++ opcodesFloat

/-- `op = w[15:8]` (30_encoding.md R61). -/
def fieldOp (w : CmdWord) : BitVec 8 := w.extractLsb' 8 8

/-- `rd = w[7:6]` (30_encoding.md R61). -/
def fieldRd (w : CmdWord) : VIdx := (w.extractLsb' 6 2).toFin

/-- `ra = w[5:4]` (30_encoding.md R61). -/
def fieldRa (w : CmdWord) : VIdx := (w.extractLsb' 4 2).toFin

/-- `rb = w[3:2]` (30_encoding.md R61). -/
def fieldRb (w : CmdWord) : VIdx := (w.extractLsb' 2 2).toFin

/-- `rc = w[1:0]` (30_encoding.md R61). -/
def fieldRc (w : CmdWord) : VIdx := (w.extractLsb' 0 2).toFin

/-- Why a word is not a command (30_encoding.md R65): the two kinds of illegal word. -/
inductive IllegalWord where
  /-- the opcode byte is none of the 47 values -/
  | unassignedOpcode
  /-- a field the format does not use is not zero -/
  | mustBeZeroField
deriving DecidableEq, Repr

/-- The result of decoding: exactly one command, or a rejection by name (30_encoding.md R65). -/
inductive Decoded where
  | command (i : Instr)
  | illegal (why : IllegalWord)
deriving DecidableEq, Repr

/-- The decoding algorithm of 30_encoding.md R66: total, reads no state. -/
def decodeWord (w : CmdWord) : Decoded :=
  match opcodeMap.find? (fun r => r.op == fieldOp w) with
  | none => .illegal .unassignedOpcode
  | some r =>
    if w &&& formatMask r.format = r.op ++ (0 : BitVec 8) then
      .command (r.build (fieldRd w) (fieldRa w) (fieldRb w) (fieldRc w))
    else .illegal .mustBeZeroField

/-- The command a word decodes to, if it is one. -/
def decode (w : CmdWord) : Option Instr :=
  match decodeWord w with
  | .command i => some i
  | .illegal _ => none

/-- The opcode byte of a command (30_encoding.md R64). -/
def opcodeOf : Instr → BitVec 8
  | .nop => 0x00
  | .mov _ _ => 0x01
  | .zero _ => 0x02
  | .unpkle _ => 0x10
  | .unpkbe _ => 0x11
  | .pkle _ => 0x12
  | .pkbe _ => 0x13
  | .isneg _ => 0x14
  | .asi8 _ => 0x20
  | .asi16 _ => 0x21
  | .asi32 _ => 0x22
  | .asi64 _ => 0x23
  | .asi128 _ => 0x24
  | .asu8 _ => 0x28
  | .asu16 _ => 0x29
  | .asu32 _ => 0x2A
  | .asu64 _ => 0x2B
  | .asu128 _ => 0x2C
  | .fromi8 _ => 0x30
  | .fromi16 _ => 0x31
  | .fromi32 _ => 0x32
  | .fromi64 _ => 0x33
  | .fromi128 _ => 0x34
  | .fromu8 _ => 0x38
  | .fromu16 _ => 0x39
  | .fromu32 _ => 0x3A
  | .fromu64 _ => 0x3B
  | .fromu128 _ => 0x3C
  | .fromu24 _ => 0x3D
  | .add _ _ _ => 0x40
  | .sub _ _ _ => 0x41
  | .mul _ _ _ => 0x42
  | .div _ _ _ => 0x43
  | .rem _ _ _ => 0x44
  | .neg _ _ => 0x45
  | .and _ _ _ => 0x50
  | .or _ _ _ => 0x51
  | .xor _ _ _ => 0x52
  | .not _ _ => 0x53
  | .shl _ _ _ => 0x54
  | .shr _ _ _ => 0x55
  | .cmp _ _ => 0x60
  | .clamp _ _ _ _ => 0x61
  | .asf32 _ => 0x70
  | .asf64 _ => 0x71
  | .fromf32 _ => 0x78
  | .fromf64 _ => 0x79

/-- The four register fields `(rd, ra, rb, rc)` of a command, a field its format does not use being zero
(30_encoding.md R62, R63). -/
def fieldsOf : Instr → VIdx × VIdx × VIdx × VIdx
  | .nop => (0, 0, 0, 0)
  | .mov rd ra => (rd, ra, 0, 0)
  | .zero rd => (rd, 0, 0, 0)
  | .unpkle rd => (rd, 0, 0, 0)
  | .unpkbe rd => (rd, 0, 0, 0)
  | .pkle ra => (0, ra, 0, 0)
  | .pkbe ra => (0, ra, 0, 0)
  | .isneg ra => (0, ra, 0, 0)
  | .asi8 ra => (0, ra, 0, 0)
  | .asi16 ra => (0, ra, 0, 0)
  | .asi32 ra => (0, ra, 0, 0)
  | .asi64 ra => (0, ra, 0, 0)
  | .asi128 ra => (0, ra, 0, 0)
  | .asu8 ra => (0, ra, 0, 0)
  | .asu16 ra => (0, ra, 0, 0)
  | .asu32 ra => (0, ra, 0, 0)
  | .asu64 ra => (0, ra, 0, 0)
  | .asu128 ra => (0, ra, 0, 0)
  | .fromi8 rd => (rd, 0, 0, 0)
  | .fromi16 rd => (rd, 0, 0, 0)
  | .fromi32 rd => (rd, 0, 0, 0)
  | .fromi64 rd => (rd, 0, 0, 0)
  | .fromi128 rd => (rd, 0, 0, 0)
  | .fromu8 rd => (rd, 0, 0, 0)
  | .fromu16 rd => (rd, 0, 0, 0)
  | .fromu32 rd => (rd, 0, 0, 0)
  | .fromu64 rd => (rd, 0, 0, 0)
  | .fromu128 rd => (rd, 0, 0, 0)
  | .fromu24 rd => (rd, 0, 0, 0)
  | .add rd ra rb => (rd, ra, rb, 0)
  | .sub rd ra rb => (rd, ra, rb, 0)
  | .mul rd ra rb => (rd, ra, rb, 0)
  | .div rd ra rb => (rd, ra, rb, 0)
  | .rem rd ra rb => (rd, ra, rb, 0)
  | .neg rd ra => (rd, ra, 0, 0)
  | .and rd ra rb => (rd, ra, rb, 0)
  | .or rd ra rb => (rd, ra, rb, 0)
  | .xor rd ra rb => (rd, ra, rb, 0)
  | .not rd ra => (rd, ra, 0, 0)
  | .shl rd ra rb => (rd, ra, rb, 0)
  | .shr rd ra rb => (rd, ra, rb, 0)
  | .cmp ra rb => (0, ra, rb, 0)
  | .clamp rd ra rb rc => (rd, ra, rb, rc)
  | .asf32 ra => (0, ra, 0, 0)
  | .asf64 ra => (0, ra, 0, 0)
  | .fromf32 rd => (rd, 0, 0, 0)
  | .fromf64 rd => (rd, 0, 0, 0)

/-- A command word from its five fields, `op*256 + rd*64 + ra*16 + rb*4 + rc` (30_encoding.md R61). -/
def packFields (op : BitVec 8) (rd ra rb rc : VIdx) : CmdWord :=
  op ++ BitVec.ofFin (w := 2) rd ++ BitVec.ofFin (w := 2) ra ++ BitVec.ofFin (w := 2) rb
    ++ BitVec.ofFin (w := 2) rc

/-- The one word of a command (30_encoding.md R61, R63). -/
def encode (i : Instr) : CmdWord :=
  match fieldsOf i with
  | (rd, ra, rb, rc) => packFields (opcodeOf i) rd ra rb rc

/-- The command read from a word whose bits are numbered as spec/opcode_table.json numbers them; every
command has one length, 16 bits (30_encoding.md R60), so a longer word is none. Log entry 11. -/
def decodeTableWord (nbits w : Nat) : Option Instr :=
  if nbits ≤ 16 then decode (BitVec.ofNat 16 (w % 2 ^ nbits)) else none

end Sys2Proof
end

