-- ==== Sys2Proof/Machine/State.lean ====
section
/-! DEFINITION. The state of the machine as plain data: the 272 bits of 10_state.md and the host's list of
moves with its position (R28); the state after reset; the reasons a step can stop. -/

namespace Sys2Proof.Machine
open Sys2Proof

/-- The cause of the recorded fault (10_state.md R29, 60_exceptions.md R180): all four codes of the 2-bit field. -/
inductive Cause where
  /-- code 0 -/
  | none
  /-- code 1 -/
  | divideByZero
  /-- code 2 -/
  | clampOrder
  /-- code 3 -/
  | illegalCommand
deriving DecidableEq, Repr

/-- The status register (10_state.md R29). Bit 7 is a constant 0, not state
(93_implementation_defined.md Part 3); the 8-bit word is `statusWord`. Log entry 10. -/
structure Status where
  neg : Bool
  lt : Bool
  eq : Bool
  gt : Bool
  fault : Bool
  cause : Cause
deriving DecidableEq, Repr

/-- The three byte lanes `T[0]`, `T[1]`, `T[2]` (10_state.md R25, 20_memory.md R40). Log entry 9. -/
structure Lanes where
  t0 : Byte
  t1 : Byte
  t2 : Byte
deriving DecidableEq, Repr

/-- The state of one unit (10_state.md) and of its host's list of moves (R28). -/
structure State where
  /-- the value cells `V[0..3]` (R24) -/
  v : Vector Cell24 4
  /-- the byte lanes `T[0..2]` (R25) -/
  t : Lanes
  /-- the wide register `W` (R26) -/
  w : Wide
  /-- `STATUS` (R29) -/
  status : Status
  /-- `FCMD`, the faulting command word (R31) -/
  fcmd : CmdWord
  /-- the program `P`, the host's list of moves (R28); not a register of the unit. Log entry 1. -/
  program : List HostMove
  /-- the position counter `pc` over `P` (R28); not a register of the unit -/
  pc : Nat
deriving DecidableEq, Repr

/-- Why the model stops where the spec gives no meaning. The unit's own three faults are no stops: they are
taken as 60_exceptions.md R182 describes, with a next state. -/
inductive Fault where
  /-- Raised by `MemRead` and `MemWrite` for an access that leaves the three lanes, or for a list of the wrong
  length: 20_memory.md R41 gives it no meaning, and no command makes one. Safe. -/
  | laneRange
deriving DecidableEq, Repr

/-- Why the model refuses a step. -/
inductive Refusal where
  /-- An instruction without a meaning yet, by its mnemonic; no arm of `exec` answers it. Safe. -/
  | notModelled (mnemonic : String)
  /-- Raised by `step` when `pc` has reached the end of the program: the host makes no further move and the
  run has ended (70_reset_and_hazards.md R208), so there is no step. Safe. Log entry 2. -/
  | runEnded
deriving DecidableEq, Repr

/-- The state after reset (10_state.md R32): every register of the unit zero, no move given yet, `pc = 0`. -/
def State.reset : State where
  v := #v[⟨0, 0, 0⟩, ⟨0, 0, 0⟩, ⟨0, 0, 0⟩, ⟨0, 0, 0⟩]
  t := ⟨0, 0, 0⟩
  w := 0
  status := ⟨false, false, false, false, false, .none⟩
  fcmd := 0
  program := []
  pc := 0

end Sys2Proof.Machine
end

