-- ==== Sys2Proof/Machine/Ops.lean ====
section
/-! DEFINITION. The shared operations over the state: reads and writes of the registers, the byte-lane
primitives, taking a fault, reset, and the freeze of a faulted unit. -/

namespace Sys2Proof.Machine
open Sys2Proof

/-- The outcome of a command or a host move on this machine. -/
abbrev Result := Host.Outcome State Fault Refusal

/-- Read of a value cell, `V[i]` (00_scope.md R8). -/
def State.getV (s : State) (i : VIdx) : Cell24 := s.v.get i

/-- Write of a value cell, `V[i] <- c` (00_scope.md R8); no other cell changes (10_state.md R23). -/
def State.setV (s : State) (i : VIdx) (c : Cell24) : State := { s with v := s.v.set i c }

/-- Write of the whole wide register, `W <- x` (00_scope.md R8). -/
def State.setW (s : State) (x : Wide) : State := { s with w := x }

/-- Write of all three lanes. -/
def State.setT (s : State) (t : Lanes) : State := { s with t := t }

/-- Read of lane `k` (00_scope.md R8). -/
def Lanes.lane (t : Lanes) (k : Fin 3) : Byte :=
  match k with
  | 0 => t.t0
  | 1 => t.t1
  | 2 => t.t2

/-- `MemRead(addr, n)`: `n` bytes in increasing lane order, defined only for `addr + n <= 3`; no byte
order is applied (00_scope.md R8, 20_memory.md R41). -/
def memRead (t : Lanes) (addr n : Nat) : Option (List Byte) :=
  if addr + n ≤ 3 then some (([t.t0, t.t1, t.t2].drop addr).take n) else none

/-- Lane `k` after the bytes `ys` are written from lane `addr` on. -/
def laneAfter (addr : Nat) (ys : List Byte) (k : Nat) (old : Byte) : Byte :=
  if addr ≤ k then ys[k - addr]?.getD old else old

/-- `MemWrite(addr, n, bytes)`: `T[addr + j] <- bytes[j]` for every `j`, all at once, defined only for
`addr + n <= 3` and `n` bytes (00_scope.md R8, 20_memory.md R41). -/
def memWrite (t : Lanes) (addr n : Nat) (ys : List Byte) : Option Lanes :=
  if addr + n ≤ 3 ∧ ys.length = n then
    some ⟨laneAfter addr ys 0 t.t0, laneAfter addr ys 1 t.t1, laneAfter addr ys 2 t.t2⟩
  else none

/-- Fault entry, `raise <Fault>(w)`: `STATUS.FAULT <- 1`, `STATUS.CAUSE <- k`, `FCMD <- w`, and nothing else
(60_exceptions.md R182). There is no handler and no return; only reset leaves the state (R184). -/
def State.enterFault (s : State) (k : Cause) (w : CmdWord) : State :=
  { s with status := { s.status with fault := true, cause := k }, fcmd := w }

/-- The host move `Reset` (70_reset_and_hazards.md R200): every register of the unit takes its reset value
(10_state.md R32), whatever the state before; the host's program and `pc` are not the unit's (R28). -/
def State.resetUnit (s : State) : State :=
  { State.reset with program := s.program, pc := s.pc }

/-- A command issued to the unit: ignored while `STATUS.FAULT = 1`, otherwise its own effect
(60_exceptions.md R183, R185). Log entry 13. -/
def command (s : State) (effect : State → Result) : Result :=
  if s.status.fault then .next s else effect s

end Sys2Proof.Machine
end

