-- ==== Sys2Proof/Machine/Operands.lean ====
section
/-! DEFINITION. The value functions of 00_scope.md R7 and the operand forms: the two readings of a cell, the cell of a
number, the 32-bit intermediate, and the shapes of a command by its source and destination. -/

namespace Sys2Proof.Machine
open Sys2Proof

/-- `u24(c)`, the cell's bits `(b2, b1, b0)` as a 24-bit vector (00_scope.md R7, 10_state.md R20). -/
def u24 (c : Cell24) : BitVec 24 := c.b2 ++ c.b1 ++ c.b0

/-- `cell(x)`, the cell of a 24-bit vector (00_scope.md R7). -/
def cellOf (x : BitVec 24) : Cell24 :=
  ⟨x.extractLsb' 0 8, x.extractLsb' 8 8, x.extractLsb' 16 8⟩

/-- `s24(c)`, the numeric value of a cell, in `[-8388608, 8388607]` (00_scope.md R7, 10_state.md R21). -/
def s24 (c : Cell24) : Int := (u24 c).toInt

/-- `wrap24(z)`, the cell that holds `z` modulo `2^24` (00_scope.md R7). -/
def wrap24 (z : Int) : Cell24 := cellOf (BitVec.ofInt 24 z)

/-- The zero cell. -/
def zeroCell : Cell24 := ⟨0, 0, 0⟩

/-- `MIN`, value -8388608 (10_state.md R21). -/
def minCell : Cell24 := ⟨0x00, 0x00, 0x80⟩

/-- `MAX`, value 8388607 (10_state.md R21). -/
def maxCell : Cell24 := ⟨0xFF, 0xFF, 0x7F⟩

/-- `a32(c)`, the cell widened to a 32-bit signed integer (00_scope.md R7). -/
def a32 (c : Cell24) : BitVec 32 := (u24 c).signExtend 32

/-- Narrowing a 32-bit result: the low three bytes, bits 31:24 dropped (43_construct.md R111, 46_arith.md R145). -/
def narrow32 (r : BitVec 32) : Cell24 :=
  ⟨r.extractLsb' 0 8, r.extractLsb' 8 8, r.extractLsb' 16 8⟩

/-- Bits `hi:lo` of the wide register as the low `n` bits, `W[n-1:0]` (10_state.md R26). -/
def lowW (n : Nat) (w : Wide) : BitVec n := w.extractLsb' 0 n

/-- A width-`n` result in the wide register: the low `n` bits, zeros above (10_state.md R26). Log entry 6. -/
def toW (n : Nat) (r : BitVec n) : Wide := r.setWidth 128

/-- A command with one source cell and a destination cell; the source is read before the destination is
written (70_reset_and_hazards.md R204). -/
def unaryCell (f : Cell24 → Cell24) (rd ra : VIdx) (s : State) : Result :=
  command s fun s => .next (s.setV rd (f (s.getV ra)))

/-- A command with two source cells and a destination cell (70_reset_and_hazards.md R204). -/
def binaryCell (f : Cell24 → Cell24 → Cell24) (rd ra rb : VIdx) (s : State) : Result :=
  command s fun s => .next (s.setV rd (f (s.getV ra) (s.getV rb)))

/-- A command with one source cell that writes all of `W` (42_sign_widen_narrow.md R90). -/
def cellToW (f : Cell24 → Wide) (ra : VIdx) (s : State) : Result :=
  command s fun s => .next (s.setW (f (s.getV ra)))

/-- A command that reads the low `n` bits of `W` and writes one cell (43_construct.md R110). -/
def lowWToCell (n : Nat) (f : BitVec n → Cell24) (rd : VIdx) (s : State) : Result :=
  command s fun s => .next (s.setV rd (f (lowW n s.w)))

/-- A command that reads the three lanes and writes one cell: `order` places the bytes of
`MemRead(0, 3)` (41_pack_unpack.md R80). -/
def lanesToCell (order : Byte → Byte → Byte → Cell24) (rd : VIdx) (s : State) : Result :=
  command s fun s =>
    match memRead s.t 0 3 with
    | some [y0, y1, y2] => .next (s.setV rd (order y0 y1 y2))
    | _ => .fault .laneRange

/-- A command that reads one cell and writes the three lanes with `MemWrite(0, 3, bytes)`
(41_pack_unpack.md R80). -/
def cellToLanes (bytes : Cell24 → List Byte) (ra : VIdx) (s : State) : Result :=
  command s fun s =>
    match memWrite s.t 0 3 (bytes (s.getV ra)) with
    | some t => .next (s.setT t)
    | none => .fault .laneRange

end Sys2Proof.Machine
end

