-- ==== Sys2Proof/Machine/Flags.lean ====
section
/-! DEFINITION. `STATUS`: its 8-bit word, the two flag writes, and the six comparison operators read from the flags. -/

namespace Sys2Proof.Machine
open Sys2Proof

/-- The code of a cause in `STATUS[6:5]` (60_exceptions.md R180). -/
def causeCode : Cause → BitVec 2
  | .none => 0
  | .divideByZero => 1
  | .clampOrder => 2
  | .illegalCommand => 3

/-- `STATUS` as the host reads it (10_state.md R29): `NEG` bit 0, `LT` 1, `EQ` 2, `GT` 3, `FAULT` 4,
`CAUSE` 6:5, bit 7 reads 0. -/
def statusWord (t : Status) : BitVec 8 :=
  0#1 ++ causeCode t.cause ++ BitVec.ofBool t.fault ++ BitVec.ofBool t.gt ++ BitVec.ofBool t.eq
    ++ BitVec.ofBool t.lt ++ BitVec.ofBool t.neg

/-- Write of `STATUS.NEG`, the one flag of `ISNEG` (10_state.md R29). -/
def State.setNeg (s : State) (b : Bool) : State := { s with status := { s.status with neg := b } }

/-- Write of `STATUS.LT`, `EQ`, `GT`, the three flags of `CMP` (10_state.md R29). -/
def State.setOrder (s : State) (l e g : Bool) : State :=
  { s with status := { s.status with lt := l, eq := e, gt := g } }

/-- The sign test: bit 7 of the most significant byte (42_sign_widen_narrow.md R91). -/
def isNegative (c : Cell24) : Bool := c.b2.getLsbD 7

/-- `a < b` in the order of the widened 32-bit signed values (45_compare.md R140). -/
def cellLt (a b : Cell24) : Bool := (a32 a).slt (a32 b)

/-- The six comparison operators of 45_compare.md R142. -/
inductive CompareOp where
  | lt
  | le
  | gt
  | ge
  | eq
  | ne
deriving DecidableEq, Repr

/-- A comparison operator read from the flags after `CMP` (45_compare.md R142); the host's test, no command. -/
def CompareOp.read (o : CompareOp) (t : Status) : Bool :=
  match o with
  | .lt => t.lt
  | .le => t.lt || t.eq
  | .gt => t.gt
  | .ge => t.gt || t.eq
  | .eq => t.eq
  | .ne => !t.eq

end Sys2Proof.Machine
end

