-- ==== Sys2Proof/Machine/Arith.lean ====
section
/-! DEFINITION. Arithmetic: `ADD`, `SUB`, `MUL`, `DIV`, `REM`, `NEG` (46_arith.md). Each but `NEG` widens both
operands to 32-bit signed, does the 32-bit operation, and narrows the result to 24 bits (R145). -/

namespace Sys2Proof.Machine
open Sys2Proof

/-- The sum (R146). -/
def addCell (a b : Cell24) : Cell24 := narrow32 (a32 a + a32 b)

/-- The difference (R147). -/
def subCell (a b : Cell24) : Cell24 := narrow32 (a32 a - a32 b)

/-- The product (R148); the 32-bit product wraps (90_conflicts.md C6). -/
def mulCell (a b : Cell24) : Cell24 := narrow32 (a32 a * a32 b)

/-- `tdiv(A, B)`, the quotient rounded toward zero (R153, D15). Log entry 5. -/
def tdivInt (a b : Int) : Int := Int.tdiv a b

/-- `trem(A, B) = A - B * tdiv(A, B)` (R153). -/
def tremInt (a b : Int) : Int := a - b * tdivInt a b

/-- The quotient of two cells, for a divisor that is not zero (R149). -/
def divCell (a b : Cell24) : Cell24 := narrow32 (BitVec.ofInt 32 (tdivInt (s24 a) (s24 b)))

/-- The remainder of two cells, for a divisor that is not zero (R150). -/
def remCell (a b : Cell24) : Cell24 := narrow32 (BitVec.ofInt 32 (tremInt (s24 a) (s24 b)))

/-- Unary minus: NOT of the raw bits, plus one (R151). -/
def negCell (a : Cell24) : Cell24 := cellOf ((u24 a ^^^ 0xFFFFFF) + 1)

/-- The shape of `DIV` and `REM`: the fault `DivideByZero` when the divisor cell is zero
(60_exceptions.md R189), else the result; `w` is the command word. -/
def divideCell (f : Cell24 → Cell24 → Cell24) (w : CmdWord) (rd ra rb : VIdx) (s : State) : Result :=
  command s fun s =>
    if u24 (s.getV rb) = 0 then .next (s.enterFault .divideByZero w)
    else .next (s.setV rd (f (s.getV ra) (s.getV rb)))

/-- `ADD Vd, Va, Vb` (R146). -/
def execAdd (rd ra rb : VIdx) (s : State) : Result := binaryCell addCell rd ra rb s

/-- `SUB Vd, Va, Vb` (R147). -/
def execSub (rd ra rb : VIdx) (s : State) : Result := binaryCell subCell rd ra rb s

/-- `MUL Vd, Va, Vb` (R148). -/
def execMul (rd ra rb : VIdx) (s : State) : Result := binaryCell mulCell rd ra rb s

/-- `DIV Vd, Va, Vb` (R149). -/
def execDiv (rd ra rb : VIdx) (s : State) : Result :=
  divideCell divCell (encode (.div rd ra rb)) rd ra rb s

/-- `REM Vd, Va, Vb` (R150). -/
def execRem (rd ra rb : VIdx) (s : State) : Result :=
  divideCell remCell (encode (.rem rd ra rb)) rd ra rb s

/-- `NEG Vd, Va` (R151). -/
def execNeg (rd ra : VIdx) (s : State) : Result := unaryCell negCell rd ra s

end Sys2Proof.Machine
end

