-- ==== Sys2Proof/Machine/Bitwise.lean ====
section
/-! DEFINITION. Bitwise logic and shifts: `AND`, `OR`, `XOR`, `NOT`, `SHL`, `SHR` (47_bitwise_shift.md). -/

namespace Sys2Proof.Machine
open Sys2Proof

/-- A byte operation applied to the three pairs of bytes (R160). -/
def bytewise (f : Byte → Byte → Byte) (a b : Cell24) : Cell24 :=
  ⟨f a.b0 b.b0, f a.b1 b.b1, f a.b2 b.b2⟩

/-- The complement of the three bytes (R164). -/
def notCell (a : Cell24) : Cell24 := ⟨a.b0 ^^^ 0xFF, a.b1 ^^^ 0xFF, a.b2 ^^^ 0xFF⟩

/-- The low five bits of the amount widened to 32 bits (R165). -/
def amountMask5 (b : Cell24) : Nat := ((a32 b).extractLsb' 0 5).toNat

/-- The 32-bit left shift, narrowed (R166). -/
def shlBy (a : Cell24) (n : Nat) : Cell24 := narrow32 (a32 a <<< n)

/-- The 32-bit arithmetic right shift, narrowed (R167). -/
def shrBy (a : Cell24) (n : Nat) : Cell24 := narrow32 ((a32 a).sshiftRight n)

/-- A shift under a policy for amounts outside 0 to 31 (R165, 93_implementation_defined.md U1). Log entry 4. -/
def shiftCell (p : ShiftOor) (shift : Cell24 → Nat → Cell24) (a b : Cell24) : Cell24 :=
  match p with
  | .mask5 => shift a (amountMask5 b)
  | .zeroResult => if 0 ≤ s24 b ∧ s24 b ≤ 31 then shift a (amountMask5 b) else zeroCell

/-- `AND Vd, Va, Vb` (R161). -/
def execAnd (rd ra rb : VIdx) (s : State) : Result := binaryCell (bytewise (· &&& ·)) rd ra rb s

/-- `OR Vd, Va, Vb` (R162). -/
def execOr (rd ra rb : VIdx) (s : State) : Result := binaryCell (bytewise (· ||| ·)) rd ra rb s

/-- `XOR Vd, Va, Vb` (R163). -/
def execXor (rd ra rb : VIdx) (s : State) : Result := binaryCell (bytewise (· ^^^ ·)) rd ra rb s

/-- `NOT Vd, Va` (R164). -/
def execNot (rd ra : VIdx) (s : State) : Result := unaryCell notCell rd ra s

/-- `SHL Vd, Va, Vb` (R166). -/
def execShl (rd ra rb : VIdx) (s : State) : Result :=
  binaryCell (shiftCell Config.shiftOor shlBy) rd ra rb s

/-- `SHR Vd, Va, Vb` (R167). -/
def execShr (rd ra rb : VIdx) (s : State) : Result :=
  binaryCell (shiftCell Config.shiftOor shrBy) rd ra rb s

end Sys2Proof.Machine
end

