-- ==== Sys2Proof/Machine/Compare.lean ====
section
/-! DEFINITION. Signed ordering: `CMP` (45_compare.md). -/

namespace Sys2Proof.Machine
open Sys2Proof

/-- `CMP Va, Vb` (R141): writes `LT`, `EQ`, `GT` from the order of the widened signed values (R140). -/
def execCmp (ra rb : VIdx) (s : State) : Result :=
  command s fun s =>
    let a := s.getV ra
    let b := s.getV rb
    .next (s.setOrder (cellLt a b) (a32 a == a32 b) (cellLt b a))

end Sys2Proof.Machine
end

