-- ==== Sys2Proof/Machine/Construct.lean ====
section
/-! DEFINITION. Construction from native integers by truncation: `FROMI8` to `FROMI128`, `FROMU8` to `FROMU128`,
`FROMU24` (43_construct.md). -/

namespace Sys2Proof.Machine
open Sys2Proof

/-- `0xFF*b`: `0xFF` if the bit is 1, else `0x00` (R112). -/
def signByte (b : Bool) : Byte := if b then 0xFF else 0x00

/-- From a signed 8-bit source: the byte and two copies of its sign (R112). Log entry 14. -/
def fromSigned8 (x : BitVec 8) : Cell24 :=
  ⟨x, signByte (x.getLsbD 7), signByte (x.getLsbD 7)⟩

/-- From a signed 16-bit source: two bytes and a copy of the sign (R113). -/
def fromSigned16 (x : BitVec 16) : Cell24 :=
  ⟨x.extractLsb' 0 8, x.extractLsb' 8 8, signByte (x.getLsbD 15)⟩

/-- From an unsigned 8-bit source (R117). -/
def fromUnsigned8 (x : BitVec 8) : Cell24 := ⟨x, 0x00, 0x00⟩

/-- From an unsigned 16-bit source (R118). -/
def fromUnsigned16 (x : BitVec 16) : Cell24 := ⟨x.extractLsb' 0 8, x.extractLsb' 8 8, 0x00⟩

/-- From a source of 24 bits or more, signed or unsigned: the low three bytes (R111). -/
def fromLow24 {n : Nat} (x : BitVec n) : Cell24 :=
  ⟨x.extractLsb' 0 8, x.extractLsb' 8 8, x.extractLsb' 16 8⟩

/-- `FROMI8 Vd` (R112). -/
def execFromi8 (rd : VIdx) (s : State) : Result := lowWToCell 8 fromSigned8 rd s

/-- `FROMI16 Vd` (R113). -/
def execFromi16 (rd : VIdx) (s : State) : Result := lowWToCell 16 fromSigned16 rd s

/-- `FROMI32 Vd` (R114). -/
def execFromi32 (rd : VIdx) (s : State) : Result := lowWToCell 32 fromLow24 rd s

/-- `FROMI64 Vd` (R115). -/
def execFromi64 (rd : VIdx) (s : State) : Result := lowWToCell 64 fromLow24 rd s

/-- `FROMI128 Vd` (R116). -/
def execFromi128 (rd : VIdx) (s : State) : Result := lowWToCell 128 fromLow24 rd s

/-- `FROMU8 Vd` (R117). -/
def execFromu8 (rd : VIdx) (s : State) : Result := lowWToCell 8 fromUnsigned8 rd s

/-- `FROMU16 Vd` (R118). -/
def execFromu16 (rd : VIdx) (s : State) : Result := lowWToCell 16 fromUnsigned16 rd s

/-- `FROMU32 Vd` (R119). -/
def execFromu32 (rd : VIdx) (s : State) : Result := lowWToCell 32 fromLow24 rd s

/-- `FROMU64 Vd` (R120). -/
def execFromu64 (rd : VIdx) (s : State) : Result := lowWToCell 64 fromLow24 rd s

/-- `FROMU128 Vd` (R121). -/
def execFromu128 (rd : VIdx) (s : State) : Result := lowWToCell 128 fromLow24 rd s

/-- `FROMU24 Vd` (R123): the sibling's value is the number in `W[23:0]`. -/
def execFromu24 (rd : VIdx) (s : State) : Result := lowWToCell 24 fromLow24 rd s

end Sys2Proof.Machine
end

