-- ==== Sys2Proof/Machine/Float.lean ====
section
/-! DEFINITION. Floating-point conversions: `ASF32`, `ASF64`, `FROMF32`, `FROMF64` (44_float.md). -/

namespace Sys2Proof.Machine
open Sys2Proof

/-- The exact encoding of an integer with `|n| <= 2^23` in a format with `frac` fraction bits, exponent bias
`bias` and the sign in bit `sgn` (R133, IEEE 754 by D17). Log entry 7. -/
def floatBits (frac bias sgn : Nat) (n : Int) : Nat :=
  if n = 0 then 0
  else
    let sign := if n < 0 then 1 else 0
    let m := n.natAbs
    let e := m.log2
    sign * 2 ^ sgn + (e + bias) * 2 ^ frac + (m - 2 ^ e) * 2 ^ (frac - e)

/-- `f32bits(n)` (R133). -/
def f32bits (n : Int) : BitVec 32 := BitVec.ofNat 32 (floatBits 23 127 31 n)

/-- `f64bits(n)` (R133). -/
def f64bits (n : Int) : BitVec 64 := BitVec.ofNat 64 (floatBits 52 1023 63 n)

/-- `ASF32 Va` (R131): the binary32 of the cell's value, zeros above bit 31. -/
def execAsf32 (ra : VIdx) (s : State) : Result := cellToW (fun c => toW 32 (f32bits (s24 c))) ra s

/-- `ASF64 Va` (R132): the binary64 of the cell's value, zeros above bit 63. -/
def execAsf64 (ra : VIdx) (s : State) : Result := cellToW (fun c => toW 64 (f64bits (s24 c))) ra s

/-- Construction from a float through a conversion `f` to 32 bits: the low three bytes of its result (R134, R135). -/
def fromFloat {n : Nat} (f : BitVec n → BitVec 32) (x : BitVec n) : Cell24 := fromLow24 (f x)

/-- `FROMF32 Vd` (R134), with the open parameter `F2I32` (R136). -/
def execFromf32 (rd : VIdx) (s : State) : Result := lowWToCell 32 (fromFloat Config.f2i32) rd s

/-- `FROMF64 Vd` (R135), with the open parameter `F2I64` (R136). -/
def execFromf64 (rd : VIdx) (s : State) : Result := lowWToCell 64 (fromFloat Config.f2i64) rd s

/-- The recommended instance of R136 on the fields of a float: NaN to 0, the fraction discarded, saturation at the
signed 32-bit bounds. The machine does not use it: its parameters are open. -/
def f2iFields (frac bias expMax : Nat) (neg : Bool) (e f : Nat) : BitVec 32 :=
  if e = expMax ∧ f ≠ 0 then 0
  else if e = expMax then (if neg then 0x80000000 else 0x7FFFFFFF)
  else
    let m := if e = 0 then f else 2 ^ frac + f
    let t : Int := if bias + frac ≤ e then (m * 2 ^ (e - (bias + frac)) : Nat) else (m / 2 ^ (bias + frac - max e 1) : Nat)
    let t := if neg then -t else t
    if 2147483647 < t then 0x7FFFFFFF
    else if t < -2147483648 then 0x80000000
    else BitVec.ofInt 32 t

/-- The recommended instance of `F2I32` (R136); not used by the machine. -/
def f2iRecommended32 (x : BitVec 32) : BitVec 32 :=
  f2iFields 23 127 255 (x.getLsbD 31) (x.extractLsb' 23 8).toNat (x.extractLsb' 0 23).toNat

/-- The recommended instance of `F2I64` (R136); not used by the machine. -/
def f2iRecommended64 (x : BitVec 64) : BitVec 32 :=
  f2iFields 52 1023 2047 (x.getLsbD 63) (x.extractLsb' 52 11).toNat (x.extractLsb' 0 52).toNat

end Sys2Proof.Machine
end

