-- ==== Sys2Proof/Machine/Misc.lean ====
section
/-! DEFINITION. Clamp, default value, copy and no-operation: `CLAMP`, `ZERO`, `MOV`, `NOP` (48_clamp_misc.md). -/

namespace Sys2Proof.Machine
open Sys2Proof

/-- `self.clamp(min, max)` for `min <= max`: one of the three cells, byte for byte (R171). -/
def clampCell (a lo hi : Cell24) : Cell24 :=
  if cellLt a lo then lo else if cellLt hi a then hi else a

/-- `CLAMP Vd, Va, Vb, Vc` (R171): `ClampOrder` when min > max (60_exceptions.md R190), else the clamped cell. -/
def execClamp (rd ra rb rc : VIdx) (s : State) : Result :=
  command s fun s =>
    if cellLt (s.getV rc) (s.getV rb) then
      .next (s.enterFault .clampOrder (encode (.clamp rd ra rb rc)))
    else .next (s.setV rd (clampCell (s.getV ra) (s.getV rb) (s.getV rc)))

/-- `ZERO Vd` (R174). -/
def execZero (rd : VIdx) (s : State) : Result :=
  command s fun s => .next (s.setV rd zeroCell)

/-- `MOV Vd, Va` (R175). -/
def execMov (rd ra : VIdx) (s : State) : Result := unaryCell id rd ra s

/-- `NOP` (R176): reads nothing, writes nothing. -/
def execNop (s : State) : Result := command s fun s => .next s

end Sys2Proof.Machine
end

