-- ==== Sys2Proof/Machine/Pack.lean ====
section
/-! DEFINITION. Byte packing and unpacking: `UNPKLE`, `UNPKBE`, `PKLE`, `PKBE` (41_pack_unpack.md). -/

namespace Sys2Proof.Machine
open Sys2Proof

/-- `UNPKLE Vd` (R81): `b0 = T[0]`, `b1 = T[1]`, `b2 = T[2]`. -/
def execUnpkle (rd : VIdx) (s : State) : Result :=
  lanesToCell (fun y0 y1 y2 => ⟨y0, y1, y2⟩) rd s

/-- `UNPKBE Vd` (R82): `b0 = T[2]`, `b1 = T[1]`, `b2 = T[0]`. -/
def execUnpkbe (rd : VIdx) (s : State) : Result :=
  lanesToCell (fun y0 y1 y2 => ⟨y2, y1, y0⟩) rd s

/-- `PKLE Va` (R83): `T[0] = b0`, `T[1] = b1`, `T[2] = b2`. -/
def execPkle (ra : VIdx) (s : State) : Result :=
  cellToLanes (fun c => [c.b0, c.b1, c.b2]) ra s

/-- `PKBE Va` (R84): `T[0] = b2`, `T[1] = b1`, `T[2] = b0`. -/
def execPkbe (ra : VIdx) (s : State) : Result :=
  cellToLanes (fun c => [c.b2, c.b1, c.b0]) ra s

end Sys2Proof.Machine
end

