-- ==== Sys2Proof/Machine/Widen.lean ====
section
/-! DEFINITION. Sign test, sign extension, zero extension and narrowing: `ISNEG`, `ASI8` to `ASI128`, `ASU8` to
`ASU128` (42_sign_widen_narrow.md). -/

namespace Sys2Proof.Machine
open Sys2Proof

/-- Signed target of 32, 64 or 128 bits: sign extension to `n` bits, zeros above bit `n-1` (R92 (a), R90). -/
def signWiden (n : Nat) (c : Cell24) : Wide := toW n ((u24 c).signExtend n)

/-- Unsigned target of 32, 64 or 128 bits: the raw bit pattern, zeros above (R92 (b), R90). -/
def zeroWiden (n : Nat) (c : Cell24) : Wide := toW n ((u24 c).setWidth n)

/-- Target of 8 bits: the low byte (R92 (c)). -/
def narrowTo8 (c : Cell24) : Wide := toW 8 c.b0

/-- Target of 16 bits: the low two bytes (R92 (c)). -/
def narrowTo16 (c : Cell24) : Wide := toW 16 (c.b1 ++ c.b0)

/-- `ISNEG Va` (R91): writes `STATUS.NEG` only. -/
def execIsneg (ra : VIdx) (s : State) : Result :=
  command s fun s => .next (s.setNeg (isNegative (s.getV ra)))

/-- `ASI8 Va` (R93). -/
def execAsi8 (ra : VIdx) (s : State) : Result := cellToW narrowTo8 ra s

/-- `ASI16 Va` (R94). -/
def execAsi16 (ra : VIdx) (s : State) : Result := cellToW narrowTo16 ra s

/-- `ASI32 Va` (R95). -/
def execAsi32 (ra : VIdx) (s : State) : Result := cellToW (signWiden 32) ra s

/-- `ASI64 Va` (R96). -/
def execAsi64 (ra : VIdx) (s : State) : Result := cellToW (signWiden 64) ra s

/-- `ASI128 Va` (R97). -/
def execAsi128 (ra : VIdx) (s : State) : Result := cellToW (signWiden 128) ra s

/-- `ASU8 Va` (R98). -/
def execAsu8 (ra : VIdx) (s : State) : Result := cellToW narrowTo8 ra s

/-- `ASU16 Va` (R99). -/
def execAsu16 (ra : VIdx) (s : State) : Result := cellToW narrowTo16 ra s

/-- `ASU32 Va` (R100). -/
def execAsu32 (ra : VIdx) (s : State) : Result := cellToW (zeroWiden 32) ra s

/-- `ASU64 Va` (R101). -/
def execAsu64 (ra : VIdx) (s : State) : Result := cellToW (zeroWiden 64) ra s

/-- `ASU128 Va` (R102). -/
def execAsu128 (ra : VIdx) (s : State) : Result := cellToW (zeroWiden 128) ra s

end Sys2Proof.Machine
end

