-- ==== Sys2Proof/Machine/Dispatch.lean ====
section
/-! DEFINITION. Execution of one command: one arm per constructor of Instr, each a direct call of its meaning. -/

namespace Sys2Proof.Machine
open Sys2Proof

-- The effect of one command on the state (00_scope.md R11).
def exec (i : Instr) (s : State) : Host.Outcome State Fault Refusal :=
  match i with
  | .nop => Sys2Proof.Machine.execNop s
  | .mov rd ra => Sys2Proof.Machine.execMov rd ra s
  | .zero rd => Sys2Proof.Machine.execZero rd s
  | .unpkle rd => Sys2Proof.Machine.execUnpkle rd s
  | .unpkbe rd => Sys2Proof.Machine.execUnpkbe rd s
  | .pkle ra => Sys2Proof.Machine.execPkle ra s
  | .pkbe ra => Sys2Proof.Machine.execPkbe ra s
  | .isneg ra => Sys2Proof.Machine.execIsneg ra s
  | .asi8 ra => Sys2Proof.Machine.execAsi8 ra s
  | .asi16 ra => Sys2Proof.Machine.execAsi16 ra s
  | .asi32 ra => Sys2Proof.Machine.execAsi32 ra s
  | .asi64 ra => Sys2Proof.Machine.execAsi64 ra s
  | .asi128 ra => Sys2Proof.Machine.execAsi128 ra s
  | .asu8 ra => Sys2Proof.Machine.execAsu8 ra s
  | .asu16 ra => Sys2Proof.Machine.execAsu16 ra s
  | .asu32 ra => Sys2Proof.Machine.execAsu32 ra s
  | .asu64 ra => Sys2Proof.Machine.execAsu64 ra s
  | .asu128 ra => Sys2Proof.Machine.execAsu128 ra s
  | .fromi8 rd => Sys2Proof.Machine.execFromi8 rd s
  | .fromi16 rd => Sys2Proof.Machine.execFromi16 rd s
  | .fromi32 rd => Sys2Proof.Machine.execFromi32 rd s
  | .fromi64 rd => Sys2Proof.Machine.execFromi64 rd s
  | .fromi128 rd => Sys2Proof.Machine.execFromi128 rd s
  | .fromu8 rd => Sys2Proof.Machine.execFromu8 rd s
  | .fromu16 rd => Sys2Proof.Machine.execFromu16 rd s
  | .fromu32 rd => Sys2Proof.Machine.execFromu32 rd s
  | .fromu64 rd => Sys2Proof.Machine.execFromu64 rd s
  | .fromu128 rd => Sys2Proof.Machine.execFromu128 rd s
  | .fromu24 rd => Sys2Proof.Machine.execFromu24 rd s
  | .add rd ra rb => Sys2Proof.Machine.execAdd rd ra rb s
  | .sub rd ra rb => Sys2Proof.Machine.execSub rd ra rb s
  | .mul rd ra rb => Sys2Proof.Machine.execMul rd ra rb s
  | .div rd ra rb => Sys2Proof.Machine.execDiv rd ra rb s
  | .rem rd ra rb => Sys2Proof.Machine.execRem rd ra rb s
  | .neg rd ra => Sys2Proof.Machine.execNeg rd ra s
  | .and rd ra rb => Sys2Proof.Machine.execAnd rd ra rb s
  | .or rd ra rb => Sys2Proof.Machine.execOr rd ra rb s
  | .xor rd ra rb => Sys2Proof.Machine.execXor rd ra rb s
  | .not rd ra => Sys2Proof.Machine.execNot rd ra s
  | .shl rd ra rb => Sys2Proof.Machine.execShl rd ra rb s
  | .shr rd ra rb => Sys2Proof.Machine.execShr rd ra rb s
  | .cmp ra rb => Sys2Proof.Machine.execCmp ra rb s
  | .clamp rd ra rb rc => Sys2Proof.Machine.execClamp rd ra rb rc s
  | .asf32 ra => Sys2Proof.Machine.execAsf32 ra s
  | .asf64 ra => Sys2Proof.Machine.execAsf64 ra s
  | .fromf32 rd => Sys2Proof.Machine.execFromf32 rd s
  | .fromf64 rd => Sys2Proof.Machine.execFromf64 rd s

end Sys2Proof.Machine
end

