-- ==== Sys2Proof/Machine/Moves.lean ====
section
/-! DEFINITION. The host's moves on the unit, and what the host can read of it (10_state.md R28, R33). -/

namespace Sys2Proof.Machine
open Sys2Proof

/-- One command word handed to the unit, in the order of checks of 60_exceptions.md R185: a faulted unit ignores
it (R183); an illegal word raises `IllegalCommand` (R181); a command is executed. -/
def issueWord (w : CmdWord) (s : State) : Result :=
  if s.status.fault then .next s
  else
    match decodeWord w with
    | .illegal _ => .next (s.enterFault .illegalCommand w)
    | .command i => exec i s

/-- A host write between two steps, ignored while `STATUS.FAULT = 1` (10_state.md R33, 60_exceptions.md R183). -/
def hostWrite (write : State → State) (s : State) : State :=
  if s.status.fault then s else write s

/-- One host move (10_state.md R28, R33; 70_reset_and_hazards.md R200, R201). -/
def makeMove (m : HostMove) (s : State) : Result :=
  match m with
  | .cmd w => issueWord w s
  | .hostWriteT y0 y1 y2 => .next (hostWrite (fun s => s.setT ⟨y0, y1, y2⟩) s)
  | .hostWriteW x => .next (hostWrite (fun s => s.setW x) s)
  | .reset => .next s.resetUnit

/-- `pc <- pc + 1`, after every move: retired, faulted or ignored (10_state.md R28). -/
def advancePc : Result → Result
  | .next s => .next { s with pc := s.pc + 1 }
  | .fault f => .fault f
  | .refused r => .refused r

/-- The move at `pc`, none when the run has ended (10_state.md R28, 70_reset_and_hazards.md R208). -/
def currentMove (s : State) : Option HostMove := s.program[s.pc]?

/-- The output wire `fault_o`, equal to `STATUS.FAULT` at all times (60_exceptions.md R186). -/
def faultO (s : State) : Bool := s.status.fault

/-- Byte lane `k` of `W`, `W[8k+7:8k]` (10_state.md R26, 20_memory.md R46). -/
def wLane (w : Wide) (k : Fin 16) : Byte := w.extractLsb' (8 * k) 8

/-- What the host can read between steps (10_state.md R33): a cell, a single lane of `T` or of `W`
(20_memory.md R47), all of `W`, `STATUS`, `FCMD`, and the wire `fault_o`. -/
inductive HostReg where
  | v (i : VIdx)
  | t (k : Fin 3)
  | w
  | wLane (k : Fin 16)
  | status
  | fcmd
  | faultO
deriving DecidableEq, Repr

/-- The value a host read gives, as a number; a read has no effect on the state (10_state.md R33). -/
def hostRead (r : HostReg) (s : State) : Nat :=
  match r with
  | .v i => (u24 (s.getV i)).toNat
  | .t k => (s.t.lane k).toNat
  | .w => s.w.toNat
  | .wLane k => (Sys2Proof.Machine.wLane s.w k).toNat
  | .status => (statusWord s.status).toNat
  | .fcmd => s.fcmd.toNat
  | .faultO => (Sys2Proof.Machine.faultO s).toNat

end Sys2Proof.Machine
end

