-- ==== Sys2Proof/Machine/Step.lean ====
section
/-! DEFINITION. One step of the machine: the host move at `pc`, then `pc + 1` (10_state.md R28). -/

namespace Sys2Proof.Machine
open Sys2Proof

/-- One step (00_scope.md R11, 10_state.md R28). When no move is left the run has ended and there is no
step (70_reset_and_hazards.md R208). Log entries 1 and 2. -/
def step (s : State) : Host.Outcome State Fault Refusal :=
  match currentMove s with
  | none => .refused .runEnded
  | some m => advancePc (makeMove m s)

/-- The state whose very next step issues the command word with these bits: the host's program is that one
move and `pc` is at it (log entries 1 and 11). The unit's registers are as in `s`. -/
def State.withFetchWord (s : State) (nbits w : Nat) : State :=
  { s with program := [.cmd (BitVec.ofNat 16 (w % 2 ^ nbits))], pc := 0 }

end Sys2Proof.Machine
end

