-- ==== Sys2Proof/Machine/Text.lean ====
section
/-! DEFINITION. The host-side text forms: the decimal form of a cell (48_clamp_misc.md R173), the assembler syntax
(30_encoding.md R67) and the pseudo-instructions (R68). None of them is a command; no step uses them. Log entry 12. -/

namespace Sys2Proof.Machine
open Sys2Proof

/-- The character of a base-ten digit. -/
def digitOf (d : Nat) : Char := Char.ofNat (48 + d)

/-- The base-ten digits of `m` in front of `acc`, most significant first, with `fuel` bounding their number. -/
def digitsFuel : Nat → Nat → List Char → List Char
  | 0, _, acc => acc
  | fuel + 1, m, acc => if m = 0 then acc else digitsFuel fuel (m / 10) (digitOf (m % 10) :: acc)

/-- `digits(m)` for `m > 0`: no leading zero (R173). -/
def digits (m : Nat) : List Char := digitsFuel m m []

/-- The characters of `dec(c)` (R173). -/
def decChars (c : Cell24) : List Char :=
  let n := s24 c
  if n = 0 then ['0']
  else if 0 < n then digits n.natAbs
  else '-' :: digits n.natAbs

/-- `dec(c)`, the decimal text form of a cell (R173). -/
def dec (c : Cell24) : String := String.ofList (decChars c)

/-- The decimal text of a natural number. -/
def natChars (n : Nat) : List Char := if n = 0 then ['0'] else digits n

/-- The name of a value cell, `V0` to `V3` (R67). -/
def regChars (i : VIdx) : List Char := ['V', digitOf i.val]

/-- Texts separated by a comma and a space. -/
def commaSeparated : List (List Char) → List Char
  | [] => []
  | [x] => x
  | x :: rest => x ++ [',', ' '] ++ commaSeparated rest

/-- A mnemonic and its operands (R67). -/
def lineOf (mnemonic : List Char) (operands : List (List Char)) : List Char :=
  if operands = [] then mnemonic else mnemonic ++ [' '] ++ commaSeparated operands

/-- The operands a format writes, in the order `Vd, Va, Vb, Vc` (R62, R67). -/
def usedFields (f : Format) (rd ra rb rc : VIdx) : List VIdx :=
  match f with
  | .z => []
  | .d => [rd]
  | .a => [ra]
  | .da => [rd, ra]
  | .ab => [ra, rb]
  | .dab => [rd, ra, rb]
  | .dabc => [rd, ra, rb, rc]

/-- The assembler line of a command (R67). -/
def asmCommand (i : Instr) : List Char :=
  match opcodeMap.find? (fun r => r.op == opcodeOf i), fieldsOf i with
  | some r, (rd, ra, rb, rc) => lineOf r.mnemonic ((usedFields r.format rd ra rb rc).map regChars)
  | none, _ => []

/-- The assembler line of a host move (R67); none for a word that is no command. -/
def asmMove : HostMove → Option (List Char)
  | .cmd w => (decode w).map asmCommand
  | .hostWriteT y0 y1 y2 =>
    some (lineOf ['H', 'O', 'S', 'T', 'T'] [natChars y0.toNat, natChars y1.toNat, natChars y2.toNat])
  | .hostWriteW x => some (lineOf ['H', 'O', 'S', 'T', 'W'] [natChars x.toNat])
  | .reset => some ['R', 'E', 'S', 'E', 'T']

/-- The core command a pseudo-instruction stands for: the same command with `rd = ra` (R68). -/
def expandPseudo : Pseudo → Instr
  | .addIp rd rb => .add rd rd rb
  | .subIp rd rb => .sub rd rd rb
  | .mulIp rd rb => .mul rd rd rb
  | .divIp rd rb => .div rd rd rb
  | .remIp rd rb => .rem rd rd rb
  | .andIp rd rb => .and rd rd rb
  | .orIp rd rb => .or rd rd rb
  | .xorIp rd rb => .xor rd rd rb
  | .shlIp rd rb => .shl rd rd rb
  | .shrIp rd rb => .shr rd rd rb
  | .negIp rd => .neg rd rd
  | .notIp rd => .not rd rd

/-- A space or a tab. -/
def isBlank (c : Char) : Bool := c == ' ' || c == '\t'

/-- A text without blanks at its two ends. -/
def trimBlanks (l : List Char) : List Char :=
  ((l.dropWhile isBlank).reverse.dropWhile isBlank).reverse

/-- The parts of a text between its commas. -/
def splitCommas : List Char → List (List Char)
  | [] => [[]]
  | c :: cs =>
    if c == ',' then [] :: splitCommas cs
    else
      match splitCommas cs with
      | [] => [[c]]
      | x :: rest => (c :: x) :: rest

/-- A register name (R67). -/
def parseReg : List Char → Option VIdx
  | ['V', '0'] => some 0
  | ['V', '1'] => some 1
  | ['V', '2'] => some 2
  | ['V', '3'] => some 3
  | _ => none

/-- The value of a hexadecimal digit, in either case. -/
def hexDigit (c : Char) : Option Nat :=
  let n := c.toNat
  if 48 ≤ n ∧ n ≤ 57 then some (n - 48)
  else if 65 ≤ n ∧ n ≤ 70 then some (n - 55)
  else if 97 ≤ n ∧ n ≤ 102 then some (n - 87)
  else none

/-- The value of a digit sequence in a base, continuing from `acc`. -/
def parseDigits (base : Nat) : List Char → Nat → Option Nat
  | [], acc => some acc
  | c :: cs, acc =>
    match hexDigit c with
    | some d => if d < base then parseDigits base cs (acc * base + d) else none
    | none => none

/-- A number: `0x` prefixes hexadecimal, everything else is decimal (00_scope.md R6). -/
def parseNumber : List Char → Option Nat
  | [] => none
  | ['0', 'x'] => none
  | '0' :: 'x' :: ds => parseDigits 16 ds 0
  | ds => parseDigits 10 ds 0

/-- All elements mapped, or none if one fails. -/
def mapAll {α β : Type} (f : α → Option β) : List α → Option (List β)
  | [] => some []
  | x :: xs =>
    match f x, mapAll f xs with
    | some y, some ys => some (y :: ys)
    | _, _ => none

/-- The four fields from the operands a format writes, unused fields zero (R62, R67). -/
def placeFields (f : Format) (l : List VIdx) : Option (VIdx × VIdx × VIdx × VIdx) :=
  match f, l with
  | .z, [] => some (0, 0, 0, 0)
  | .d, [rd] => some (rd, 0, 0, 0)
  | .a, [ra] => some (0, ra, 0, 0)
  | .da, [rd, ra] => some (rd, ra, 0, 0)
  | .ab, [ra, rb] => some (0, ra, rb, 0)
  | .dab, [rd, ra, rb] => some (rd, ra, rb, 0)
  | .dabc, [rd, ra, rb, rc] => some (rd, ra, rb, rc)
  | _, _ => none

/-- A core command from its mnemonic and registers (R67). -/
def parseCommand (mnemonic : List Char) (regs : List VIdx) : Option Instr :=
  match opcodeMap.find? (fun r => r.mnemonic == mnemonic) with
  | none => none
  | some r =>
    match placeFields r.format regs with
    | some (rd, ra, rb, rc) => some (r.build rd ra rb rc)
    | none => none

/-- The pseudo-instructions with two operands, by the part of their name before `.IP` (R68). -/
def pseudoBinary : List (List Char × (VIdx → VIdx → Pseudo)) := [
  (['A', 'D', 'D'], .addIp), (['S', 'U', 'B'], .subIp), (['M', 'U', 'L'], .mulIp),
  (['D', 'I', 'V'], .divIp), (['R', 'E', 'M'], .remIp), (['A', 'N', 'D'], .andIp),
  (['O', 'R'], .orIp), (['X', 'O', 'R'], .xorIp), (['S', 'H', 'L'], .shlIp), (['S', 'H', 'R'], .shrIp)]

/-- The pseudo-instructions with one operand, by the part of their name before `.IP` (R68). -/
def pseudoUnary : List (List Char × (VIdx → Pseudo)) := [
  (['N', 'E', 'G'], .negIp), (['N', 'O', 'T'], .notIp)]

/-- A pseudo-instruction from its name and registers (R68). -/
def parsePseudo (mnemonic : List Char) (regs : List VIdx) : Option Pseudo :=
  match regs with
  | [rd, rb] =>
    (pseudoBinary.find? (fun p => p.1 ++ ['.', 'I', 'P'] == mnemonic)).map (fun p => p.2 rd rb)
  | [rd] =>
    (pseudoUnary.find? (fun p => p.1 ++ ['.', 'I', 'P'] == mnemonic)).map (fun p => p.2 rd)
  | _ => none

/-- A host move that is no command, from its name and operands (R67). -/
def parseHostMove (mnemonic : List Char) (operands : List (List Char)) : Option HostMove :=
  match mapAll parseNumber operands with
  | some [y0, y1, y2] =>
    if mnemonic = ['H', 'O', 'S', 'T', 'T'] ∧ y0 < 256 ∧ y1 < 256 ∧ y2 < 256 then
      some (.hostWriteT (BitVec.ofNat 8 y0) (BitVec.ofNat 8 y1) (BitVec.ofNat 8 y2))
    else none
  | some [x] =>
    if mnemonic = ['H', 'O', 'S', 'T', 'W'] ∧ x < 2 ^ 128 then some (.hostWriteW (BitVec.ofNat 128 x))
    else none
  | some [] => if mnemonic = ['R', 'E', 'S', 'E', 'T'] then some .reset else none
  | _ => none

/-- One assembler line (R67, R68): no move for an empty line or a comment, one move for a command, a
pseudo-instruction, `HOSTT`, `HOSTW` or `RESET`, and none where the line is not of the syntax. -/
def assembleLine (line : List Char) : Option (List HostMove) :=
  let text := trimBlanks (line.takeWhile (· != ';'))
  let mnemonic := text.takeWhile (fun c => !isBlank c)
  let rest := trimBlanks (text.dropWhile (fun c => !isBlank c))
  let operands := if rest = [] then [] else (splitCommas rest).map trimBlanks
  if text = [] then some []
  else
    match parseHostMove mnemonic operands with
    | some m => some [m]
    | none =>
      match mapAll parseReg operands with
      | none => none
      | some regs =>
        match parseCommand mnemonic regs, parsePseudo mnemonic regs with
        | some i, _ => some [.cmd (encode i)]
        | none, some p => some [.cmd (encode (expandPseudo p))]
        | none, none => none

end Sys2Proof.Machine
end

