-- ==== Sys2Proof/Safety.lean ====
section
/-! DEFINITION. What a run is and when it ended well (70_reset_and_hazards.md R208), the invariant of the unit, and the
terms the statements use: what a command writes and what it leaves unchanged. -/

namespace Sys2Proof.Safety
open Sys2Proof Sys2Proof.Machine

/-- The run has ended: every move has been made (R208). -/
def RunEnded (s : State) : Prop := s.program.length ≤ s.pc

/-- The run ended well: at its end `STATUS.FAULT = 0` (R208). -/
def EndedWell (s : State) : Prop := RunEnded s ∧ s.status.fault = false

/-- The run ended in a fault: at its end `STATUS.FAULT = 1` (R208). -/
def EndedInFault (s : State) : Prop := RunEnded s ∧ s.status.fault = true

/-- The recorded cause and command word describe a fault that the cells still show: the faulted unit is frozen, so
the operands that caused it stand as they were (60_exceptions.md R180, R182, R183; 10_state.md R31). -/
def FaultExplained (s : State) : Prop :=
  match s.status.cause with
  | .none => s.fcmd = 0
  | .divideByZero =>
    ∃ rd ra rb, (s.fcmd = encode (.div rd ra rb) ∨ s.fcmd = encode (.rem rd ra rb)) ∧ u24 (s.getV rb) = 0
  | .clampOrder =>
    ∃ rd ra rb rc, s.fcmd = encode (.clamp rd ra rb rc) ∧ s24 (s.getV rc) < s24 (s.getV rb)
  | .illegalCommand => decode s.fcmd = none

/-- No two of the flags `LT`, `EQ`, `GT` are 1 (10_state.md R29). -/
def OrderFlagsExclusive (s : State) : Prop :=
  ¬(s.status.lt = true ∧ s.status.eq = true) ∧ ¬(s.status.lt = true ∧ s.status.gt = true)
    ∧ ¬(s.status.eq = true ∧ s.status.gt = true)

/-- The invariant of the unit: `CAUSE` is non-zero exactly when `FAULT = 1`, the record of the fault is true, and the
order flags exclude one another (10_state.md R29, R31; 60_exceptions.md R182). -/
def UnitInv (s : State) : Prop :=
  (s.status.fault = true ↔ s.status.cause ≠ .none) ∧ FaultExplained s ∧ OrderFlagsExclusive s

/-- All lanes read as before. -/
def SameLanes (s t : State) : Prop := ∀ k : Fin 3, t.t.lane k = s.t.lane k

/-- All cells read as before. -/
def SameCells (s t : State) : Prop := ∀ j : VIdx, t.getV j = s.getV j

/-- The host's program and position are as before. -/
def SameHost (s t : State) : Prop := t.program = s.program ∧ t.pc = s.pc

/-- All 272 bits of the unit are as before. -/
def SameUnit (s t : State) : Prop :=
  SameCells s t ∧ SameLanes s t ∧ t.w = s.w ∧ t.status = s.status ∧ t.fcmd = s.fcmd

/-- Nothing but cell `rd` may differ. -/
def OnlyCell (rd : VIdx) (s t : State) : Prop :=
  (∀ j : VIdx, j ≠ rd → t.getV j = s.getV j) ∧ SameLanes s t ∧ t.w = s.w ∧ t.status = s.status
    ∧ t.fcmd = s.fcmd ∧ SameHost s t

/-- Nothing but `W` may differ. -/
def OnlyWide (s t : State) : Prop :=
  SameCells s t ∧ SameLanes s t ∧ t.status = s.status ∧ t.fcmd = s.fcmd ∧ SameHost s t

/-- Nothing but the three lanes may differ. -/
def OnlyLanes (s t : State) : Prop :=
  SameCells s t ∧ t.w = s.w ∧ t.status = s.status ∧ t.fcmd = s.fcmd ∧ SameHost s t

/-- Nothing but `STATUS.NEG` may differ. -/
def OnlyNeg (s t : State) : Prop :=
  SameCells s t ∧ SameLanes s t ∧ t.w = s.w ∧ t.fcmd = s.fcmd ∧ SameHost s t
    ∧ t.status.lt = s.status.lt ∧ t.status.eq = s.status.eq ∧ t.status.gt = s.status.gt
    ∧ t.status.fault = s.status.fault ∧ t.status.cause = s.status.cause

/-- Nothing but `STATUS.LT`, `EQ`, `GT` may differ. -/
def OnlyOrder (s t : State) : Prop :=
  SameCells s t ∧ SameLanes s t ∧ t.w = s.w ∧ t.fcmd = s.fcmd ∧ SameHost s t
    ∧ t.status.neg = s.status.neg ∧ t.status.fault = s.status.fault ∧ t.status.cause = s.status.cause

/-- Fault entry and nothing else: `FAULT`, `CAUSE` and `FCMD` are written, every cell, lane, `W` and every flag stand
as they were (60_exceptions.md R182). -/
def FaultEntered (k : Cause) (w : CmdWord) (s t : State) : Prop :=
  t.status.fault = true ∧ t.status.cause = k ∧ t.fcmd = w
    ∧ SameCells s t ∧ SameLanes s t ∧ t.w = s.w
    ∧ t.status.neg = s.status.neg ∧ t.status.lt = s.status.lt ∧ t.status.eq = s.status.eq
    ∧ t.status.gt = s.status.gt

/-- The run from `s` that ended in `t` faulted at the move `k` (70_reset_and_hazards.md R208): the moves before it ran to a
unit `u` that is not faulted, the move is the recorded command word, `t` is `u` with the record of that fault and nothing
else, and no later move is a reset. -/
def FaultedAt (s t : State) (k : Nat) : Prop :=
  ∃ u, s.pc ≤ k ∧ Sys2Proof.core.run (k - s.pc) s = .next u ∧ u.pc = k ∧ u.status.fault = false ∧
    s.program[k]? = some (.cmd t.fcmd) ∧ t.status.cause ≠ .none ∧ FaultEntered t.status.cause t.fcmd u t ∧
    ∀ j, k < j → s.program[j]? ≠ some .reset

/-- `exec i s` answers a next state that holds `c` in cell `rd` and differs nowhere else. -/
def WritesCell (i : Instr) (s : State) (rd : VIdx) (c : Cell24) : Prop :=
  ∃ t, exec i s = .next t ∧ t.getV rd = c ∧ OnlyCell rd s t

/-- `exec i s` answers a next state that holds `x` in `W` and differs nowhere else. -/
def WritesWide (i : Instr) (s : State) (x : Wide) : Prop :=
  ∃ t, exec i s = .next t ∧ t.w = x ∧ OnlyWide s t

/-- `exec i s` answers a next state that holds the three bytes in the lanes and differs nowhere else. -/
def WritesLanes (i : Instr) (s : State) (y0 y1 y2 : Byte) : Prop :=
  ∃ t, exec i s = .next t ∧ t.t.lane 0 = y0 ∧ t.t.lane 1 = y1 ∧ t.t.lane 2 = y2 ∧ OnlyLanes s t

/-- `exec i s` answers a next state that is fault entry with cause `k` and the command's own word. -/
def EntersFault (i : Instr) (s : State) (k : Cause) : Prop :=
  ∃ t, exec i s = .next t ∧ FaultEntered k (encode i) s t ∧ SameHost s t

/-- The command `i` is the word with the number `n`, in both directions. -/
def Encodes (i : Instr) (n : Nat) : Prop :=
  (encode i).toNat = n ∧ decode (BitVec.ofNat 16 n) = some i

/-- Two commands one after the other. -/
def execSeq (i j : Instr) (s : State) : Result :=
  match exec i s with
  | .next t => exec j t
  | r => r

/-- The destination cell of a command: its `rd` field, where its format has one (30_encoding.md R62). -/
def destination (i : Instr) : Option VIdx :=
  match formatOfOp (opcodeOf i).toNat with
  | some f => if f.uses.1 then some (fieldsOf i).1 else none
  | none => none

/-- The twelve commands that write `W`: `AS*`, `ASF32`, `ASF64` (10_state.md R26, 44_float.md R130). -/
def writesW : Instr → Bool
  | .asi8 _ | .asi16 _ | .asi32 _ | .asi64 _ | .asi128 _ => true
  | .asu8 _ | .asu16 _ | .asu32 _ | .asu64 _ | .asu128 _ => true
  | .asf32 _ | .asf64 _ => true
  | _ => false

/-- The thirteen commands that read `W`, each with the number of bits it reads (43_construct.md R110, 44_float.md R130). -/
def readsLowW (rd : VIdx) : List (Instr × Nat) := [
  (.fromi8 rd, 8), (.fromi16 rd, 16), (.fromi32 rd, 32), (.fromi64 rd, 64), (.fromi128 rd, 128),
  (.fromu8 rd, 8), (.fromu16 rd, 16), (.fromu32 rd, 32), (.fromu64 rd, 64), (.fromu128 rd, 128),
  (.fromu24 rd, 24), (.fromf32 rd, 32), (.fromf64 rd, 64)]

/-- The value of a binary32 pattern that is zero or a normal number (44_float.md R133). -/
def f32Value (x : BitVec 32) : ℚ :=
  let e := (x.extractLsb' 23 8).toNat
  let f := (x.extractLsb' 0 23).toNat
  if e = 0 ∧ f = 0 then 0
  else (if x.getLsbD 31 then -1 else 1) * (2 : ℚ) ^ ((e : Int) - 127) * (1 + (f : ℚ) / 2 ^ 23)

/-- The value of a binary64 pattern that is zero or a normal number (44_float.md R133). -/
def f64Value (x : BitVec 64) : ℚ :=
  let e := (x.extractLsb' 52 11).toNat
  let f := (x.extractLsb' 0 52).toNat
  if e = 0 ∧ f = 0 then 0
  else (if x.getLsbD 63 then -1 else 1) * (2 : ℚ) ^ ((e : Int) - 1023) * (1 + (f : ℚ) / 2 ^ 52)

end Sys2Proof.Safety
end

