-- ==== Sys2Proof/Certificates/Slice0/Obligations.lean ====
section
/-! DEFINITION. The statements for the provers. Each docstring names the rule of spec/ it formalises; the terms
(`WritesCell`, `OnlyCell`, `FaultEntered`, ...) are those of Sys2Proof/Safety.lean. -/

open Sys2Proof Sys2Proof.Machine Sys2Proof.Safety

-- ==== Encoding and decoding ====

/-- R63: every command has exactly one word, decoding inverts encoding in both directions, and a word with a field set
that its opcode's format does not use is no command. -/
def Obligations.DecodeEncodeAgree : Prop :=
  (∀ i : Instr, decode (encode i) = some i) ∧
  (∀ (w : CmdWord) (i : Instr), decode w = some i → encode i = w) ∧
  (∀ w : CmdWord, unusedFieldsZero w = false → decode w = none)

/-- R62, R65: the words that decode are the words that pass the check of WellFormed.lean, which is written by format
and apart from the decoder's table. -/
def Obligations.DecodedWordsAreWellFormedWords : Prop :=
  ∀ w : CmdWord, (decode w).isSome = wellFormedWord w

/-- R65: exactly 1085 of the 65536 words are legal. -/
def Obligations.LegalWordCountIs1085 : Prop :=
  ∃ l : List CmdWord, l.Nodup ∧ l.length = 1085 ∧ ∀ w : CmdWord, (decode w).isSome = true ↔ w ∈ l

/-- Words of 95_test_vectors.md 2.1 decode as listed there, or are rejected by name. -/
def Obligations.ListedWordsDecodeAsListed : Prop :=
  decode 0x0000 = some .nop ∧ decode 0x01F0 = some (.mov 3 3) ∧ decode 0x02C0 = some (.zero 3) ∧
  decode 0x1100 = some (.unpkbe 0) ∧ decode 0x1230 = some (.pkle 3) ∧ decode 0x2430 = some (.asi128 3) ∧
  decode 0x3D00 = some (.fromu24 0) ∧ decode 0x4084 = some (.add 2 0 1) ∧ decode 0x5340 = some (.not 1 0) ∧
  decode 0x6018 = some (.cmp 1 2) ∧ decode 0x61C6 = some (.clamp 3 0 1 2) ∧ decode 0x7900 = some (.fromf64 0) ∧
  decodeWord 0x0001 = .illegal .mustBeZeroField ∧ decodeWord 0x4085 = .illegal .mustBeZeroField ∧
  decodeWord 0x2D00 = .illegal .unassignedOpcode ∧ decodeWord 0xFFFF = .illegal .unassignedOpcode

-- ==== Steps, faults, reset ====

/-- A step runs the decoded command (R11, R66) and moves `pc` by one (R28). -/
def Obligations.StepRunsDecodedCommand : Prop :=
  ∀ (s : State) (w : CmdWord) (i : Instr),
    s.program[s.pc]? = some (.cmd w) → decode w = some i →
    ∃ t, exec i s = .next t ∧ step s = .next { t with pc := s.pc + 1 }

/-- R181: a word that is no command raises `IllegalCommand`, whatever the state of a unit that is not faulted. -/
def Obligations.IllegalWordRaisesIllegalCommand : Prop :=
  ∀ (s : State) (w : CmdWord),
    s.program[s.pc]? = some (.cmd w) → s.status.fault = false → wellFormedWord w = false →
    ∃ t, step s = .next t ∧ FaultEntered .illegalCommand w s t ∧ t.program = s.program ∧ t.pc = s.pc + 1

/-- R182: when a command word raises a fault, the step writes `FAULT`, a cause and the word, and nothing else of the unit. -/
def Obligations.FaultEntryIsPrecise : Prop :=
  ∀ (s t : State) (w : CmdWord),
    s.program[s.pc]? = some (.cmd w) → s.status.fault = false → step s = .next t → t.status.fault = true →
    ∃ k, k ≠ Cause.none ∧ FaultEntered k w s t ∧ t.program = s.program ∧ t.pc = s.pc + 1

/-- R183: a faulted unit ignores every move but reset; all 272 bits stay and only the host's position moves. -/
def Obligations.FaultedUnitIgnoresMoves : Prop :=
  ∀ (s : State) (m : HostMove),
    s.program[s.pc]? = some m → m ≠ .reset → s.status.fault = true →
    ∃ t, step s = .next t ∧ SameUnit s t ∧ t.program = s.program ∧ t.pc = s.pc + 1

/-- R184: reset is the only exit from the faulted state and clears the record; no other step changes the record. -/
def Obligations.OnlyResetLeavesTheFaultedState : Prop :=
  ∀ s t : State, s.status.fault = true → step s = .next t →
    (t.status.fault = false → s.program[s.pc]? = some .reset) ∧
    (s.program[s.pc]? = some .reset →
      t.status.fault = false ∧ t.status.cause = .none ∧ t.fcmd = 0x0000) ∧
    (s.program[s.pc]? ≠ some .reset → t.status = s.status ∧ t.fcmd = s.fcmd)

/-- R33: the two host writes, on a unit that is not faulted, and what they leave alone. -/
def Obligations.HostWritesReachLanesAndWide : Prop :=
  (∀ (s : State) (y0 y1 y2 : Byte),
    s.program[s.pc]? = some (.hostWriteT y0 y1 y2) → s.status.fault = false →
    ∃ t, step s = .next t ∧ t.t.lane 0 = y0 ∧ t.t.lane 1 = y1 ∧ t.t.lane 2 = y2 ∧
      SameCells s t ∧ t.w = s.w ∧ t.status = s.status ∧ t.fcmd = s.fcmd ∧
      t.program = s.program ∧ t.pc = s.pc + 1) ∧
  (∀ (s : State) (x : Wide),
    s.program[s.pc]? = some (.hostWriteW x) → s.status.fault = false →
    ∃ t, step s = .next t ∧ t.w = x ∧
      SameCells s t ∧ SameLanes s t ∧ t.status = s.status ∧ t.fcmd = s.fcmd ∧
      t.program = s.program ∧ t.pc = s.pc + 1)

/-- R200: the move `Reset` gives every register its reset value, whatever the state before. -/
def Obligations.ResetMoveClearsTheUnit : Prop :=
  ∀ s : State, s.program[s.pc]? = some .reset →
    ∃ t, step s = .next t ∧ (∀ j, t.getV j = ⟨0x00, 0x00, 0x00⟩) ∧ (∀ k, t.t.lane k = 0x00) ∧ t.w = 0 ∧
      statusWord t.status = 0x00 ∧ t.fcmd = 0x0000 ∧ faultO t = false ∧
      t.program = s.program ∧ t.pc = s.pc + 1

/-- R32: the reset values. -/
def Obligations.ResetValues : Prop :=
  (∀ j, State.reset.getV j = ⟨0x00, 0x00, 0x00⟩) ∧ (∀ k, State.reset.t.lane k = 0x00) ∧ State.reset.w = 0 ∧
  statusWord State.reset.status = 0x00 ∧ State.reset.fcmd = 0x0000 ∧ faultO State.reset = false

/-- The invariant of the unit holds at reset (R29, R31, R32). -/
def Obligations.ResetMeetsUnitInv : Prop := UnitInv State.reset

/-- Every step keeps the invariant of the unit: `CAUSE` is non-zero exactly when `FAULT = 1`, the recorded cause and word
describe a fault the cells still show, `FCMD` is 0 without one, and the order flags exclude one another
(R29, R31, R182, R183). -/
def Obligations.EveryStepKeepsUnitInv : Prop :=
  ∀ s t : State, UnitInv s → step s = .next t → UnitInv t

/-- Every host move completes and advances the position by one; no step stops with a fault (R28, R187, R206). -/
def Obligations.EveryMoveCompletes : Prop :=
  ∀ s : State, s.pc < s.program.length →
    ∃ t, step s = .next t ∧ t.pc = s.pc + 1 ∧ t.program = s.program

/-- R208: every run of a finite program ends after as many steps as moves are left. From a unit that is not faulted: a run
that ends in a fault has one command at which it faulted, whose step wrote the record and nothing else; every move from it
on was without effect, and none was a reset. A run without a reset that ends well was never faulted. -/
def Obligations.RunsOfFiniteProgramsEnd : Prop :=
  ∀ s : State, s.pc ≤ s.program.length →
    ∃ t : State, Sys2Proof.core.run (s.program.length - s.pc) s = .next t ∧
      t.pc = t.program.length ∧ t.program = s.program ∧ (EndedWell t ∨ EndedInFault t) ∧
      (s.status.fault = false → EndedInFault t → ∃ k, FaultedAt s t k) ∧
      (EndedWell t → (∀ j, s.pc ≤ j → s.program[j]? ≠ some .reset) →
        ∀ k u, k ≤ s.program.length - s.pc → Sys2Proof.core.run k s = .next u → u.status.fault = false)

/-- The model's choice (log entry 2): when no move is left there is no step, and the model says so by name. -/
def Obligations.EndedRunIsRefusedByName : Prop :=
  ∀ s : State, RunEnded s → step s = .refused .runEnded

-- ==== What no command touches ====

/-- R30: no command other than `ISNEG` and `CMP` writes a flag. -/
def Obligations.FlagsWrittenOnlyByIsnegAndCmp : Prop :=
  ∀ (i : Instr) (s t : State), exec i s = .next t →
    ((∀ ra, i ≠ .isneg ra) → t.status.neg = s.status.neg) ∧
    ((∀ ra rb, i ≠ .cmp ra rb) →
      t.status.lt = s.status.lt ∧ t.status.eq = s.status.eq ∧ t.status.gt = s.status.gt)

/-- R23, R24: a command writes no cell but the one its `rd` field names. -/
def Obligations.CellsWrittenOnlyAtDestination : Prop :=
  ∀ (i : Instr) (s t : State), exec i s = .next t →
    ∀ j : VIdx, destination i ≠ some j → t.getV j = s.getV j

/-- R25, R26: among the commands only `PKLE`, `PKBE` write the lanes and only the `AS*` commands write `W`. -/
def Obligations.LanesAndWideHaveFewWriters : Prop :=
  ∀ (i : Instr) (s t : State), exec i s = .next t →
    ((∀ ra, i ≠ .pkle ra ∧ i ≠ .pkbe ra) → SameLanes s t) ∧ (writesW i = false → t.w = s.w)

/-- R180, R187: the only commands that fault are `DIV`, `REM` with cause 1 and `CLAMP` with cause 2; no command stops. -/
def Obligations.OnlyDivRemClampFault : Prop :=
  ∀ (i : Instr) (s : State), s.status.fault = false →
    ∃ t, exec i s = .next t ∧
      (t.status.fault = true →
        (t.status.cause = .divideByZero ∧ ∃ rd ra rb, i = .div rd ra rb ∨ i = .rem rd ra rb) ∨
        (t.status.cause = .clampOrder ∧ ∃ rd ra rb rc, i = .clamp rd ra rb rc)) ∧
      (t.status.fault = false → t.status.cause = s.status.cause ∧ t.fcmd = s.fcmd)

/-- R29: the places of the fields in the `STATUS` word. -/
def Obligations.StatusWordLayout : Prop :=
  ∀ t : Status,
    (statusWord t).getLsbD 0 = t.neg ∧ (statusWord t).getLsbD 1 = t.lt ∧ (statusWord t).getLsbD 2 = t.eq ∧
    (statusWord t).getLsbD 3 = t.gt ∧ (statusWord t).getLsbD 4 = t.fault ∧
    ((statusWord t).extractLsb' 5 2).toNat =
      (match t.cause with | .none => 0 | .divideByZero => 1 | .clampOrder => 2 | .illegalCommand => 3) ∧
    (statusWord t).getLsbD 7 = false

-- ==== Byte lanes, packing and unpacking ====

/-- R41: `MemRead` and `MemWrite` on the lanes, for every `addr + n <= 3`, and no meaning beyond. -/
def Obligations.LaneAccessPrimitives : Prop :=
  ∀ (t : Lanes) (addr n : Nat),
    (addr + n ≤ 3 →
      (∃ ys, memRead t addr n = some ys ∧ ys.length = n ∧
        ∀ (j : Nat) (k : Fin 3), j < n → k.val = addr + j → ys[j]? = some (t.lane k)) ∧
      (∀ ys : List Byte, ys.length = n →
        ∃ u, memWrite t addr n ys = some u ∧
          (∀ (j : Nat) (k : Fin 3), j < n → k.val = addr + j → ys[j]? = some (u.lane k)) ∧
          (∀ k : Fin 3, k.val < addr ∨ addr + n ≤ k.val → u.lane k = t.lane k))) ∧
    (3 < addr + n → memRead t addr n = none ∧ ∀ ys, memWrite t addr n ys = none)

/-- R81, R82: `UNPKLE`, `UNPKBE` take the three lanes as a cell in the two byte orders and change nothing else. -/
def Obligations.UnpackTakesTheLanes : Prop :=
  ∀ (s : State) (rd : VIdx), s.status.fault = false →
    (Encodes (.unpkle rd) (0x1000 + 64 * rd.val) ∧
      WritesCell (.unpkle rd) s rd ⟨s.t.lane 0, s.t.lane 1, s.t.lane 2⟩) ∧
    (Encodes (.unpkbe rd) (0x1100 + 64 * rd.val) ∧
      WritesCell (.unpkbe rd) s rd ⟨s.t.lane 2, s.t.lane 1, s.t.lane 0⟩)

/-- R83, R84: `PKLE`, `PKBE` put the three bytes of a cell into the lanes in the two byte orders and change nothing
else. -/
def Obligations.PackFillsTheLanes : Prop :=
  ∀ (s : State) (ra : VIdx), s.status.fault = false →
    (Encodes (.pkle ra) (0x1200 + 16 * ra.val) ∧
      WritesLanes (.pkle ra) s (s.getV ra).b0 (s.getV ra).b1 (s.getV ra).b2) ∧
    (Encodes (.pkbe ra) (0x1300 + 16 * ra.val) ∧
      WritesLanes (.pkbe ra) s (s.getV ra).b2 (s.getV ra).b1 (s.getV ra).b0)

/-- R85 (a) to (d): the round trips, the reversal, and the byte swap of a mixed pair. -/
def Obligations.PackUnpackLaws : Prop :=
  ∀ (s : State) (ra rd : VIdx), s.status.fault = false →
    (∃ t, execSeq (.pkle ra) (.unpkle rd) s = .next t ∧ t.getV rd = s.getV ra) ∧
    (∃ t, execSeq (.pkbe ra) (.unpkbe rd) s = .next t ∧ t.getV rd = s.getV ra) ∧
    (∃ t, execSeq (.unpkle rd) (.pkle rd) s = .next t ∧ SameLanes s t) ∧
    (∃ t, execSeq (.unpkbe rd) (.pkbe rd) s = .next t ∧ SameLanes s t) ∧
    (∃ t u, exec (.pkbe ra) s = .next t ∧ exec (.pkle ra) s = .next u ∧
      ∀ k : Fin 3, t.t.lane k = u.t.lane (2 - k)) ∧
    (∃ t, execSeq (.pkle ra) (.unpkbe rd) s = .next t ∧
      t.getV rd = ⟨(s.getV ra).b2, (s.getV ra).b1, (s.getV ra).b0⟩) ∧
    (∃ t, execSeq (.pkbe ra) (.unpkle rd) s = .next t ∧
      t.getV rd = ⟨(s.getV ra).b2, (s.getV ra).b1, (s.getV ra).b0⟩)

-- ==== Sign test, widening, narrowing ====

/-- R91: `ISNEG` writes `NEG` with bit 7 of the most significant byte, which is 1 exactly for a negative value. -/
def Obligations.IsnegTestsTheSign : Prop :=
  ∀ (s : State) (ra : VIdx), s.status.fault = false →
    Encodes (.isneg ra) (0x1400 + 16 * ra.val) ∧
    ∃ t, exec (.isneg ra) s = .next t ∧ t.status.neg = (s.getV ra).b2.getLsbD 7 ∧
      (t.status.neg = true ↔ s24 (s.getV ra) < 0) ∧ OnlyNeg s t

/-- R93, R94, R98, R99: narrowing to 8 and 16 bits keeps the low bytes, zeros above; the results as numbers. -/
def Obligations.NarrowingKeepsLowBytes : Prop :=
  ∀ (s : State) (ra : VIdx), s.status.fault = false →
    let b0 := (s.getV ra).b0.toNat
    let b1 := (s.getV ra).b1.toNat
    (Encodes (.asi8 ra) (0x2000 + 16 * ra.val) ∧ WritesWide (.asi8 ra) s (BitVec.ofNat 128 b0)) ∧
    (Encodes (.asi16 ra) (0x2100 + 16 * ra.val) ∧ WritesWide (.asi16 ra) s (BitVec.ofNat 128 (b0 + 256 * b1))) ∧
    (Encodes (.asu8 ra) (0x2800 + 16 * ra.val) ∧ WritesWide (.asu8 ra) s (BitVec.ofNat 128 b0)) ∧
    (Encodes (.asu16 ra) (0x2900 + 16 * ra.val) ∧ WritesWide (.asu16 ra) s (BitVec.ofNat 128 (b0 + 256 * b1))) ∧
    (BitVec.ofNat 8 b0).toInt = s24 (s.getV ra) % 256 - (if 128 ≤ b0 then 256 else 0) ∧
    (BitVec.ofNat 16 (b0 + 256 * b1)).toInt = s24 (s.getV ra) % 65536 - (if 128 ≤ b1 then 65536 else 0)

/-- R95, R96, R97: sign extension to 32, 64 and 128 bits; the low `n` bits read as signed are the cell's value, and the
bits above are zero. -/
def Obligations.SignedWideningKeepsTheValue : Prop :=
  ∀ (s : State) (ra : VIdx), s.status.fault = false →
    let a := s24 (s.getV ra)
    (Encodes (.asi32 ra) (0x2200 + 16 * ra.val) ∧ WritesWide (.asi32 ra) s (BitVec.ofInt 128 (a % 2 ^ 32)) ∧
      (BitVec.ofInt 32 a).toInt = a) ∧
    (Encodes (.asi64 ra) (0x2300 + 16 * ra.val) ∧ WritesWide (.asi64 ra) s (BitVec.ofInt 128 (a % 2 ^ 64)) ∧
      (BitVec.ofInt 64 a).toInt = a) ∧
    (Encodes (.asi128 ra) (0x2400 + 16 * ra.val) ∧ WritesWide (.asi128 ra) s (BitVec.ofInt 128 a) ∧
      (BitVec.ofInt 128 a).toInt = a)

/-- R100, R101, R102: zero extension; the raw bit pattern as a number. -/
def Obligations.UnsignedWideningKeepsTheBits : Prop :=
  ∀ (s : State) (ra : VIdx), s.status.fault = false →
    let c := s.getV ra
    let x := c.b0.toNat + 256 * c.b1.toNat + 65536 * c.b2.toNat
    (Encodes (.asu32 ra) (0x2A00 + 16 * ra.val) ∧ WritesWide (.asu32 ra) s (BitVec.ofNat 128 x)) ∧
    (Encodes (.asu64 ra) (0x2B00 + 16 * ra.val) ∧ WritesWide (.asu64 ra) s (BitVec.ofNat 128 x)) ∧
    (Encodes (.asu128 ra) (0x2C00 + 16 * ra.val) ∧ WritesWide (.asu128 ra) s (BitVec.ofNat 128 x)) ∧
    (x : Int) = s24 c + (if s24 c < 0 then 16777216 else 0)

/-- R92: the byte lanes of `W` after each widening and narrowing. -/
def Obligations.ByteLanesOfWidenedResults : Prop :=
  ∀ (s : State) (ra : VIdx), s.status.fault = false →
    let c := s.getV ra
    let sign : Byte := if c.b2.getLsbD 7 then 0xFF else 0x00
    (∀ p ∈ [(Instr.asi32 ra, 4), (.asi64 ra, 8), (.asi128 ra, 16)], ∃ t, exec p.1 s = .next t ∧
      wLane t.w 0 = c.b0 ∧ wLane t.w 1 = c.b1 ∧ wLane t.w 2 = c.b2 ∧
      ∀ k : Fin 16, 3 ≤ k.val → wLane t.w k = if k.val < p.2 then sign else 0x00) ∧
    (∀ i ∈ [Instr.asu32 ra, .asu64 ra, .asu128 ra], ∃ t, exec i s = .next t ∧
      wLane t.w 0 = c.b0 ∧ wLane t.w 1 = c.b1 ∧ wLane t.w 2 = c.b2 ∧
      ∀ k : Fin 16, 3 ≤ k.val → wLane t.w k = 0x00) ∧
    (∀ i ∈ [Instr.asi16 ra, .asu16 ra], ∃ t, exec i s = .next t ∧
      wLane t.w 0 = c.b0 ∧ wLane t.w 1 = c.b1 ∧ ∀ k : Fin 16, 2 ≤ k.val → wLane t.w k = 0x00) ∧
    (∀ i ∈ [Instr.asi8 ra, .asu8 ra], ∃ t, exec i s = .next t ∧
      wLane t.w 0 = c.b0 ∧ ∀ k : Fin 16, 1 ≤ k.val → wLane t.w k = 0x00)

/-- R47, with R43, R44, R46: the host's reads of single lanes. After a pack it sees the bytes of the cell in the order of
the command, after a widening or narrowing the bytes of the result in little-endian order, in every state a lane of `W` is
that byte of the whole. -/
def Obligations.HostReadsSingleLanes : Prop :=
  (∀ (s : State) (k : Fin 16), hostRead (.wLane k) s = hostRead .w s / 256 ^ k.val % 256) ∧
  (∀ (s : State) (ra : VIdx), s.status.fault = false →
    let c := s.getV ra
    let raw := c.b0.toNat + 256 * c.b1.toNat + 65536 * c.b2.toNat
    (∃ t, exec (.pkle ra) s = .next t ∧ hostRead (.t 0) t = c.b0.toNat ∧ hostRead (.t 1) t = c.b1.toNat ∧
      hostRead (.t 2) t = c.b2.toNat) ∧
    (∃ t, exec (.pkbe ra) s = .next t ∧ hostRead (.t 0) t = c.b2.toNat ∧ hostRead (.t 1) t = c.b1.toNat ∧
      hostRead (.t 2) t = c.b0.toNat) ∧
    (∀ p ∈ [(Instr.asi32 ra, 4), (.asi64 ra, 8), (.asi128 ra, 16)], ∃ t, exec p.1 s = .next t ∧
      ∀ k : Fin 16, hostRead (.wLane k) t =
        if k.val < 3 then raw / 256 ^ k.val % 256 else if k.val < p.2 ∧ s24 c < 0 then 255 else 0) ∧
    (∀ p ∈ [(Instr.asi8 ra, 1), (.asu8 ra, 1), (.asi16 ra, 2), (.asu16 ra, 2), (.asu32 ra, 3), (.asu64 ra, 3),
        (.asu128 ra, 3)], ∃ t, exec p.1 s = .next t ∧
      ∀ k : Fin 16, hostRead (.wLane k) t = if k.val < p.2 then raw / 256 ^ k.val % 256 else 0))

/-- R103: the laws between the results of the family for one cell. -/
def Obligations.WideningLaws : Prop :=
  ∀ (s : State) (ra : VIdx), s.status.fault = false →
    ∃ i8 i16 i32 i64 i128 u8 u16 u32 u64 u128 n : State,
      exec (.asi8 ra) s = .next i8 ∧ exec (.asi16 ra) s = .next i16 ∧ exec (.asi32 ra) s = .next i32 ∧
      exec (.asi64 ra) s = .next i64 ∧ exec (.asi128 ra) s = .next i128 ∧ exec (.asu8 ra) s = .next u8 ∧
      exec (.asu16 ra) s = .next u16 ∧ exec (.asu32 ra) s = .next u32 ∧ exec (.asu64 ra) s = .next u64 ∧
      exec (.asu128 ra) s = .next u128 ∧ exec (.isneg ra) s = .next n ∧
      (i32.w.extractLsb' 0 32).toInt = s24 (s.getV ra) ∧ (i64.w.extractLsb' 0 64).toInt = s24 (s.getV ra) ∧
      i128.w.toInt = s24 (s.getV ra) ∧
      u32.w.toNat = (u24 (s.getV ra)).toNat ∧ u64.w = u32.w ∧ u128.w = u32.w ∧
      i32.w.extractLsb' 0 32 =
        u32.w.extractLsb' 0 32 + (if (u24 (s.getV ra)).getLsbD 23 then 0xFF000000 else 0) ∧
      i16.w = u16.w ∧ i16.w.extractLsb' 0 16 = i32.w.extractLsb' 0 16 ∧
      i8.w = u8.w ∧ i8.w.extractLsb' 0 8 = i32.w.extractLsb' 0 8 ∧
      n.status.neg = i32.w.getLsbD 31 ∧ n.status.neg = (u24 (s.getV ra)).getLsbD 23

-- ==== Construction from native integers ====

/-- R112, R113, R117, R118: construction from the 8 and 16-bit types keeps the source's value, in its own signedness. -/
def Obligations.ConstructionFromNarrowTypes : Prop :=
  ∀ (s : State) (rd : VIdx), s.status.fault = false →
    let x8 := s.w.extractLsb' 0 8
    let x16 := s.w.extractLsb' 0 16
    (Encodes (.fromi8 rd) (0x3000 + 64 * rd.val) ∧ WritesCell (.fromi8 rd) s rd (wrap24 x8.toInt) ∧
      s24 (wrap24 x8.toInt) = x8.toInt) ∧
    (Encodes (.fromi16 rd) (0x3100 + 64 * rd.val) ∧ WritesCell (.fromi16 rd) s rd (wrap24 x16.toInt) ∧
      s24 (wrap24 x16.toInt) = x16.toInt) ∧
    (Encodes (.fromu8 rd) (0x3800 + 64 * rd.val) ∧ WritesCell (.fromu8 rd) s rd (wrap24 x8.toNat) ∧
      s24 (wrap24 x8.toNat) = x8.toNat) ∧
    (Encodes (.fromu16 rd) (0x3900 + 64 * rd.val) ∧ WritesCell (.fromu16 rd) s rd (wrap24 x16.toNat) ∧
      s24 (wrap24 x16.toNat) = x16.toNat)

/-- R114, R115, R116, R119, R120, R121, R123: construction from the wider types is the source's value modulo 2^24. -/
def Obligations.ConstructionFromWideTypes : Prop :=
  ∀ (s : State) (rd : VIdx), s.status.fault = false →
    (Encodes (.fromi32 rd) (0x3200 + 64 * rd.val) ∧
      WritesCell (.fromi32 rd) s rd (wrap24 (s.w.extractLsb' 0 32).toInt)) ∧
    (Encodes (.fromi64 rd) (0x3300 + 64 * rd.val) ∧
      WritesCell (.fromi64 rd) s rd (wrap24 (s.w.extractLsb' 0 64).toInt)) ∧
    (Encodes (.fromi128 rd) (0x3400 + 64 * rd.val) ∧ WritesCell (.fromi128 rd) s rd (wrap24 s.w.toInt)) ∧
    (Encodes (.fromu32 rd) (0x3A00 + 64 * rd.val) ∧
      WritesCell (.fromu32 rd) s rd (wrap24 (s.w.extractLsb' 0 32).toNat)) ∧
    (Encodes (.fromu64 rd) (0x3B00 + 64 * rd.val) ∧
      WritesCell (.fromu64 rd) s rd (wrap24 (s.w.extractLsb' 0 64).toNat)) ∧
    (Encodes (.fromu128 rd) (0x3C00 + 64 * rd.val) ∧ WritesCell (.fromu128 rd) s rd (wrap24 s.w.toNat)) ∧
    (Encodes (.fromu24 rd) (0x3D00 + 64 * rd.val) ∧
      WritesCell (.fromu24 rd) s rd (wrap24 (s.w.extractLsb' 0 24).toNat))

/-- R122: two sources give one cell exactly when congruent modulo 2^24; widening and constructing back returns the cell;
the narrow round trips return the narrowed value. -/
def Obligations.ConstructionLaws : Prop :=
  (∀ x y : Int, wrap24 x = wrap24 y ↔ x % 16777216 = y % 16777216) ∧
  (∀ (s : State) (ra rd : VIdx), s.status.fault = false →
    (∀ p ∈ [(Instr.asi32 ra, Instr.fromi32 rd), (.asi64 ra, .fromi64 rd), (.asi128 ra, .fromi128 rd),
        (.asu32 ra, .fromu32 rd), (.asu64 ra, .fromu64 rd), (.asu128 ra, .fromu128 rd)],
      ∃ t, execSeq p.1 p.2 s = .next t ∧ t.getV rd = s.getV ra) ∧
    (∃ t, execSeq (.asi8 ra) (.fromi8 rd) s = .next t ∧ s24 (t.getV rd) = (s.getV ra).b0.toInt ∧
      (t.getV rd = s.getV ra ↔ -128 ≤ s24 (s.getV ra) ∧ s24 (s.getV ra) ≤ 127)) ∧
    (∃ t, execSeq (.asi16 ra) (.fromi16 rd) s = .next t ∧
      (t.getV rd = s.getV ra ↔ -32768 ≤ s24 (s.getV ra) ∧ s24 (s.getV ra) ≤ 32767)) ∧
    (∃ t, execSeq (.asu8 ra) (.fromu8 rd) s = .next t ∧
      (t.getV rd = s.getV ra ↔ 0 ≤ s24 (s.getV ra) ∧ s24 (s.getV ra) ≤ 255)) ∧
    (∃ t, execSeq (.asu16 ra) (.fromu16 rd) s = .next t ∧
      (t.getV rd = s.getV ra ↔ 0 ≤ s24 (s.getV ra) ∧ s24 (s.getV ra) ≤ 65535)))

/-- R26, R110: a command that reads the low `n` bits of `W` gives the same cell whatever the bits above hold. -/
def Obligations.ConstructionIgnoresUpperW : Prop :=
  ∀ (s : State) (x : Wide) (rd : VIdx), s.status.fault = false →
    ∀ p ∈ readsLowW rd, s.w.extractLsb' 0 p.2 = x.extractLsb' 0 p.2 →
      ∃ t u, exec p.1 s = .next t ∧ exec p.1 { s with w := x } = .next u ∧ t.getV rd = u.getV rd

-- ==== Floating point ====

/-- The bits that `ASF32` and `ASF64` (R131, R132) leave in `W`, for zero and for every other value; the encodings are
those of R133, which the spec marks as general knowledge (IEEE 754, log entry 7). -/
def Obligations.IntegerToFloatBits : Prop :=
  ∀ (s : State) (ra : VIdx), s.status.fault = false →
    let a := s24 (s.getV ra)
    let sign := if a < 0 then 1 else 0
    Encodes (.asf32 ra) (0x7000 + 16 * ra.val) ∧ Encodes (.asf64 ra) (0x7100 + 16 * ra.val) ∧
    (a = 0 → WritesWide (.asf32 ra) s 0 ∧ WritesWide (.asf64 ra) s 0) ∧
    (∀ e : Nat, 2 ^ e ≤ a.natAbs → a.natAbs < 2 ^ (e + 1) →
      WritesWide (.asf32 ra) s
        (BitVec.ofNat 128 (sign * 2 ^ 31 + (e + 127) * 2 ^ 23 + (a.natAbs - 2 ^ e) * 2 ^ (23 - e))) ∧
      WritesWide (.asf64 ra) s
        (BitVec.ofNat 128 (sign * 2 ^ 63 + (e + 1023) * 2 ^ 52 + (a.natAbs - 2 ^ e) * 2 ^ (52 - e))))

/-- R137 (a): the number that the low bits of `W` spell is exactly the cell's value, and the conversions are injective. -/
def Obligations.IntegerToFloatIsExact : Prop :=
  ∀ (s : State) (ra rb : VIdx), s.status.fault = false →
    ∃ t u t' u', exec (.asf32 ra) s = .next t ∧ exec (.asf64 ra) s = .next u ∧
      exec (.asf32 rb) s = .next t' ∧ exec (.asf64 rb) s = .next u' ∧
      f32Value (t.w.extractLsb' 0 32) = s24 (s.getV ra) ∧ f64Value (u.w.extractLsb' 0 64) = s24 (s.getV ra) ∧
      (t.w = t'.w → s.getV ra = s.getV rb) ∧ (u.w = u'.w → s.getV ra = s.getV rb)

/-- R134, R135: construction from a float is the low three bytes of the open function `F2I32` or `F2I64` of the source. -/
def Obligations.FloatToCellTakesLowBytes : Prop :=
  ∀ (s : State) (rd : VIdx), s.status.fault = false →
    let i := Config.f2i32 (s.w.extractLsb' 0 32)
    let j := Config.f2i64 (s.w.extractLsb' 0 64)
    (Encodes (.fromf32 rd) (0x7800 + 64 * rd.val) ∧
      WritesCell (.fromf32 rd) s rd ⟨i.extractLsb' 0 8, i.extractLsb' 8 8, i.extractLsb' 16 8⟩) ∧
    (Encodes (.fromf64 rd) (0x7900 + 64 * rd.val) ∧
      WritesCell (.fromf64 rd) s rd ⟨j.extractLsb' 0 8, j.extractLsb' 8 8, j.extractLsb' 16 8⟩)

/-- R137 (b), for every conversion function in place of the open parameter: where it gives every integral float in
`[-2^31, 2^31)` its integer, the cell that `FROMF32` or `FROMF64` constructs from the bits `ASF32` or `ASF64` left is the
source cell. The machine's own `FROMF32` and `FROMF64` are these constructions at its open parameters (log entry 3). -/
def Obligations.FloatRoundTripForEveryConversion : Prop :=
  (∀ (s : State) (ra rd : VIdx) (f : BitVec 32 → BitVec 32), s.status.fault = false →
    (∀ (x : BitVec 32) (z : Int), f32Value x = z → -2 ^ 31 ≤ z → z < 2 ^ 31 → f x = BitVec.ofInt 32 z) →
    ∃ t u, exec (.asf32 ra) s = .next t ∧ lowWToCell 32 (fromFloat f) rd t = .next u ∧ u.getV rd = s.getV ra) ∧
  (∀ (s : State) (ra rd : VIdx) (g : BitVec 64 → BitVec 32), s.status.fault = false →
    (∀ (x : BitVec 64) (z : Int), f64Value x = z → -2 ^ 31 ≤ z → z < 2 ^ 31 → g x = BitVec.ofInt 32 z) →
    ∃ t u, exec (.asf64 ra) s = .next t ∧ lowWToCell 64 (fromFloat g) rd t = .next u ∧ u.getV rd = s.getV ra) ∧
  (∀ (t : State) (rd : VIdx), exec (.fromf32 rd) t = lowWToCell 32 (fromFloat Config.f2i32) rd t ∧
    exec (.fromf64 rd) t = lowWToCell 64 (fromFloat Config.f2i64) rd t)

-- ==== Order ====

/-- R141: `CMP` sets exactly one of `LT`, `EQ`, `GT`, by the numeric order, and changes nothing else. -/
def Obligations.CmpWritesTheSignedOrder : Prop :=
  ∀ (s : State) (ra rb : VIdx), s.status.fault = false →
    Encodes (.cmp ra rb) (0x6000 + 16 * ra.val + 4 * rb.val) ∧
    ∃ t, exec (.cmp ra rb) s = .next t ∧
      (t.status.lt = true ↔ s24 (s.getV ra) < s24 (s.getV rb)) ∧
      (t.status.eq = true ↔ s24 (s.getV ra) = s24 (s.getV rb)) ∧
      (t.status.gt = true ↔ s24 (s.getV ra) > s24 (s.getV rb)) ∧ OnlyOrder s t

/-- R142: the six comparison operators read from the flags after `CMP`. -/
def Obligations.ComparisonOperatorsFromFlags : Prop :=
  ∀ (s : State) (ra rb : VIdx), s.status.fault = false →
    let a := s24 (s.getV ra)
    let b := s24 (s.getV rb)
    ∃ t, exec (.cmp ra rb) s = .next t ∧
      (CompareOp.lt.read t.status = true ↔ a < b) ∧ (CompareOp.le.read t.status = true ↔ a ≤ b) ∧
      (CompareOp.gt.read t.status = true ↔ a > b) ∧ (CompareOp.ge.read t.status = true ↔ a ≥ b) ∧
      (CompareOp.eq.read t.status = true ↔ s.getV ra = s.getV rb) ∧
      (CompareOp.ne.read t.status = true ↔ s.getV ra ≠ s.getV rb)

/-- R140: the order `CMP` reports is the unsigned order after inverting bit 23, with `MIN` least and `MAX` greatest. -/
def Obligations.SignedOrderByInvertedSignBit : Prop :=
  ∀ (s : State) (ra rb : VIdx), s.status.fault = false →
    ∃ t, exec (.cmp ra rb) s = .next t ∧
      (t.status.lt = true ↔
        (u24 (s.getV ra) ^^^ 0x800000).toNat < (u24 (s.getV rb) ^^^ 0x800000).toNat) ∧
      (t.status.lt = true ↔ (a32 (s.getV ra)).toInt < (a32 (s.getV rb)).toInt) ∧
      (t.status.eq = true ↔ s.getV ra = s.getV rb) ∧
      (s.getV ra = minCell → t.status.gt = false) ∧ (s.getV ra = maxCell → t.status.lt = false)

-- ==== Arithmetic ====

/-- R146, R147, R148: `ADD`, `SUB`, `MUL` are the exact result modulo 2^24, and nothing else changes. -/
def Obligations.AddSubMulWrap : Prop :=
  ∀ (s : State) (rd ra rb : VIdx), s.status.fault = false →
    let a := s24 (s.getV ra)
    let b := s24 (s.getV rb)
    let regs := 64 * rd.val + 16 * ra.val + 4 * rb.val
    (Encodes (.add rd ra rb) (0x4000 + regs) ∧ WritesCell (.add rd ra rb) s rd (wrap24 (a + b))) ∧
    (Encodes (.sub rd ra rb) (0x4100 + regs) ∧ WritesCell (.sub rd ra rb) s rd (wrap24 (a - b))) ∧
    (Encodes (.mul rd ra rb) (0x4200 + regs) ∧ WritesCell (.mul rd ra rb) s rd (wrap24 (a * b)))

/-- R149, R150, R189: `DIV` and `REM` fault on the zero divisor, whatever the dividend, and otherwise give the
quotient rounded toward zero (R153, the spec's decision D15, log entry 5) and the remainder, modulo 2^24. -/
def Obligations.DivRemTruncateOrFault : Prop :=
  ∀ (s : State) (rd ra rb : VIdx), s.status.fault = false →
    let a := s24 (s.getV ra)
    let b := s24 (s.getV rb)
    let q : Int := a.sign * b.sign * ((a.natAbs / b.natAbs : Nat) : Int)
    let regs := 64 * rd.val + 16 * ra.val + 4 * rb.val
    Encodes (.div rd ra rb) (0x4300 + regs) ∧ Encodes (.rem rd ra rb) (0x4400 + regs) ∧
    (s.getV rb = ⟨0x00, 0x00, 0x00⟩ →
      EntersFault (.div rd ra rb) s .divideByZero ∧ EntersFault (.rem rd ra rb) s .divideByZero) ∧
    (s.getV rb ≠ ⟨0x00, 0x00, 0x00⟩ →
      WritesCell (.div rd ra rb) s rd (wrap24 q) ∧ WritesCell (.rem rd ra rb) s rd (wrap24 (a - b * q)))

/-- R152 (c): for a divisor that is not zero the quotient and remainder cells satisfy the division identity, exactly but
for `MIN / -1`, and the remainder is smaller than the divisor and has the dividend's sign or is zero. -/
def Obligations.DivisionIdentity : Prop :=
  ∀ (s : State) (rd ra rb : VIdx), s.status.fault = false → s24 (s.getV rb) ≠ 0 →
    let a := s24 (s.getV ra)
    let b := s24 (s.getV rb)
    ∃ t u, exec (.div rd ra rb) s = .next t ∧ exec (.rem rd ra rb) s = .next u ∧
      (¬(a = -8388608 ∧ b = -1) → a = b * s24 (t.getV rd) + s24 (u.getV rd)) ∧
      (a = -8388608 ∧ b = -1 → t.getV rd = minCell ∧ u.getV rd = zeroCell) ∧
      (s24 (u.getV rd)).natAbs < b.natAbs ∧ (s24 (u.getV rd) = 0 ∨ (s24 (u.getV rd)).sign = a.sign)

/-- R151: `NEG` is the negated value modulo 2^24, and nothing else changes. -/
def Obligations.NegWraps : Prop :=
  ∀ (s : State) (rd ra : VIdx), s.status.fault = false →
    Encodes (.neg rd ra) (0x4500 + 64 * rd.val + 16 * ra.val) ∧
    WritesCell (.neg rd ra) s rd (wrap24 (-s24 (s.getV ra))) ∧
    WritesCell (.neg rd ra) s rd (cellOf ((u24 (s.getV ra) ^^^ 0xFFFFFF) + 1))

/-- R152 (b), (e): `ADD`, `SUB`, `MUL`, `NEG` depend on the raw 24 bits only, and subtracting is adding the negation. -/
def Obligations.RingOperationsOnRawBits : Prop :=
  ∀ (s : State) (rd ra rb : VIdx), s.status.fault = false →
    let x := u24 (s.getV ra)
    let y := u24 (s.getV rb)
    ∃ p q r n : State, exec (.add rd ra rb) s = .next p ∧ exec (.sub rd ra rb) s = .next q ∧
      exec (.mul rd ra rb) s = .next r ∧ exec (.neg rd ra) s = .next n ∧
      u24 (p.getV rd) = x + y ∧ u24 (q.getV rd) = x - y ∧ u24 (r.getV rd) = x * y ∧ u24 (n.getV rd) = -x ∧
      (∀ re : VIdx, re ≠ ra → ∃ t, execSeq (.neg re rb) (.add rd ra re) s = .next t ∧ t.getV rd = q.getV rd)

-- ==== Bitwise logic and shifts ====

/-- R161, R162, R163, R164: the bitwise commands act on each byte apart, and nothing else changes; the complement as a
number. -/
def Obligations.BitwiseCommandsActBytewise : Prop :=
  ∀ (s : State) (rd ra rb : VIdx), s.status.fault = false →
    let a := s.getV ra
    let b := s.getV rb
    let regs := 64 * rd.val + 16 * ra.val + 4 * rb.val
    (Encodes (.and rd ra rb) (0x5000 + regs) ∧
      WritesCell (.and rd ra rb) s rd ⟨a.b0 &&& b.b0, a.b1 &&& b.b1, a.b2 &&& b.b2⟩) ∧
    (Encodes (.or rd ra rb) (0x5100 + regs) ∧
      WritesCell (.or rd ra rb) s rd ⟨a.b0 ||| b.b0, a.b1 ||| b.b1, a.b2 ||| b.b2⟩) ∧
    (Encodes (.xor rd ra rb) (0x5200 + regs) ∧
      WritesCell (.xor rd ra rb) s rd ⟨a.b0 ^^^ b.b0, a.b1 ^^^ b.b1, a.b2 ^^^ b.b2⟩) ∧
    (Encodes (.not rd ra) (0x5300 + 64 * rd.val + 16 * ra.val) ∧
      WritesCell (.not rd ra) s rd ⟨a.b0 ^^^ 0xFF, a.b1 ^^^ 0xFF, a.b2 ^^^ 0xFF⟩ ∧
      WritesCell (.not rd ra) s rd (wrap24 (-s24 a - 1)))

/-- R165, R166, R167: the shifts use the amount's value modulo 32 (`SHIFT_OOR = mask5`, the spec's decision D14, log
entry 4); left is multiplication by the power of two modulo 2^24, right is division rounded down. -/
def Obligations.ShiftsMaskTheAmount : Prop :=
  ∀ (s : State) (rd ra rb : VIdx), s.status.fault = false →
    let a := s24 (s.getV ra)
    let n := (s24 (s.getV rb) % 32).toNat
    let regs := 64 * rd.val + 16 * ra.val + 4 * rb.val
    n = (s.getV rb).b0.toNat % 32 ∧
    (Encodes (.shl rd ra rb) (0x5400 + regs) ∧ WritesCell (.shl rd ra rb) s rd (wrap24 (a * 2 ^ n))) ∧
    (Encodes (.shr rd ra rb) (0x5500 + regs) ∧ WritesCell (.shr rd ra rb) s rd (wrap24 (a / 2 ^ n)) ∧
      s24 (wrap24 (a / 2 ^ n)) = a / 2 ^ n)

/-- R168 (c), (d): shifting left by `n` is multiplying by the cell of `2^n`; shifting right and back clears the low `n`
bits. -/
def Obligations.ShiftLaws : Prop :=
  ∀ (s : State) (rd ra rb rc : VIdx) (n : Nat), s.status.fault = false → s24 (s.getV rb) = n →
    (n ≤ 31 → s.getV rc = wrap24 (2 ^ n) → exec (.shl rd ra rb) s = exec (.mul rd ra rc) s) ∧
    (n ≤ 23 → rd ≠ rb → s.getV rc = wrap24 (-2 ^ n) →
      execSeq (.shr rd ra rb) (.shl rd rd rb) s = exec (.and rd ra rc) s)

-- ==== Clamp, copy, default, no operation ====

/-- R171: `CLAMP` faults when min > max, whatever the value, and otherwise returns one of the three cells; nothing else
changes. -/
def Obligations.ClampSelectsOrFaults : Prop :=
  ∀ (s : State) (rd ra rb rc : VIdx), s.status.fault = false →
    let a := s24 (s.getV ra)
    let lo := s24 (s.getV rb)
    let hi := s24 (s.getV rc)
    Encodes (.clamp rd ra rb rc) (0x6100 + 64 * rd.val + 16 * ra.val + 4 * rb.val + rc.val) ∧
    (lo > hi → EntersFault (.clamp rd ra rb rc) s .clampOrder) ∧
    (lo ≤ hi → WritesCell (.clamp rd ra rb rc) s rd
      (if a < lo then s.getV rb else if a > hi then s.getV rc else s.getV ra))

/-- R172: the laws of `CLAMP` where it does not fault. -/
def Obligations.ClampLaws : Prop :=
  ∀ (s : State) (rd ra rb rc : VIdx), s.status.fault = false → s24 (s.getV rb) ≤ s24 (s.getV rc) →
    ∃ t, exec (.clamp rd ra rb rc) s = .next t ∧
      s24 (s.getV rb) ≤ s24 (t.getV rd) ∧ s24 (t.getV rd) ≤ s24 (s.getV rc) ∧
      s24 (t.getV rd) = max (s24 (s.getV rb)) (min (s24 (s.getV ra)) (s24 (s.getV rc))) ∧
      (rd ≠ rb → rd ≠ rc → exec (.clamp rd rd rb rc) t = .next t)

/-- R174, R175, R176: `ZERO`, `MOV`, `NOP`. -/
def Obligations.ZeroMovNop : Prop :=
  ∀ (s : State) (rd ra : VIdx), s.status.fault = false →
    (Encodes (.zero rd) (0x0200 + 64 * rd.val) ∧ WritesCell (.zero rd) s rd ⟨0x00, 0x00, 0x00⟩) ∧
    (Encodes (.mov rd ra) (0x0100 + 64 * rd.val + 16 * ra.val) ∧ WritesCell (.mov rd ra) s rd (s.getV ra)) ∧
    (Encodes .nop 0x0000 ∧ exec .nop s = .next s)

/-- R68, R204: an in-place command computes what the form with another destination computes, and faults when it does. -/
def Obligations.InPlaceFormsComputeTheSame : Prop :=
  ∀ (s : State) (d e b : VIdx), s.status.fault = false →
    (∀ p ∈ [(Pseudo.addIp d b, Instr.add e d b), (.subIp d b, .sub e d b), (.mulIp d b, .mul e d b),
        (.divIp d b, .div e d b), (.remIp d b, .rem e d b), (.andIp d b, .and e d b), (.orIp d b, .or e d b),
        (.xorIp d b, .xor e d b), (.shlIp d b, .shl e d b), (.shrIp d b, .shr e d b),
        (.negIp d, .neg e d), (.notIp d, .not e d)],
      ∃ t u, exec (expandPseudo p.1) s = .next t ∧ exec p.2 s = .next u ∧
        t.status = u.status ∧ (t.status.fault = false → t.getV d = u.getV e) ∧
        (t.status.fault = true → t.getV d = s.getV d))

-- ==== Text forms ====

/-- R173: the decimal text form is a minus sign exactly for a negative value, then decimal digits that read back in base
ten as the magnitude, without a leading zero but for the text `0`; it is injective and has at most eight characters. -/
def Obligations.DecimalTextIsInjective : Prop :=
  (∀ a b : Cell24, dec a = dec b → a = b) ∧
  (∀ c : Cell24, dec c = String.ofList (decChars c) ∧ (decChars c).length ≤ 8 ∧ '+' ∉ decChars c ∧
    ∃ ds : List Char, decChars c = (if s24 c < 0 then '-' :: ds else ds) ∧ ds ≠ [] ∧
      (∀ d ∈ ds, d ∈ ['0', '1', '2', '3', '4', '5', '6', '7', '8', '9']) ∧
      ds.foldl (fun n d => 10 * n + (d.toNat - 48)) 0 = (s24 c).natAbs ∧
      (ds.head? = some '0' → ds = ['0']))

/-- R64, R67: the line of every command is its mnemonic and then its registers in the order `Vd, Va, Vb, Vc`, and the
lines of R67's examples are the words given there. -/
def Obligations.AssemblerLinesSpellTheMnemonics : Prop :=
  (∀ rd ra rb rc : VIdx, ∀ p ∈ [
      (Instr.nop, "NOP", []), (.mov rd ra, "MOV", [rd, ra]), (.zero rd, "ZERO", [rd]),
      (.unpkle rd, "UNPKLE", [rd]), (.unpkbe rd, "UNPKBE", [rd]), (.pkle ra, "PKLE", [ra]), (.pkbe ra, "PKBE", [ra]),
      (.isneg ra, "ISNEG", [ra]), (.asi8 ra, "ASI8", [ra]), (.asi16 ra, "ASI16", [ra]), (.asi32 ra, "ASI32", [ra]),
      (.asi64 ra, "ASI64", [ra]), (.asi128 ra, "ASI128", [ra]), (.asu8 ra, "ASU8", [ra]), (.asu16 ra, "ASU16", [ra]),
      (.asu32 ra, "ASU32", [ra]), (.asu64 ra, "ASU64", [ra]), (.asu128 ra, "ASU128", [ra]),
      (.fromi8 rd, "FROMI8", [rd]), (.fromi16 rd, "FROMI16", [rd]), (.fromi32 rd, "FROMI32", [rd]),
      (.fromi64 rd, "FROMI64", [rd]), (.fromi128 rd, "FROMI128", [rd]), (.fromu8 rd, "FROMU8", [rd]),
      (.fromu16 rd, "FROMU16", [rd]), (.fromu32 rd, "FROMU32", [rd]), (.fromu64 rd, "FROMU64", [rd]),
      (.fromu128 rd, "FROMU128", [rd]), (.fromu24 rd, "FROMU24", [rd]),
      (.add rd ra rb, "ADD", [rd, ra, rb]), (.sub rd ra rb, "SUB", [rd, ra, rb]), (.mul rd ra rb, "MUL", [rd, ra, rb]),
      (.div rd ra rb, "DIV", [rd, ra, rb]), (.rem rd ra rb, "REM", [rd, ra, rb]), (.neg rd ra, "NEG", [rd, ra]),
      (.and rd ra rb, "AND", [rd, ra, rb]), (.or rd ra rb, "OR", [rd, ra, rb]), (.xor rd ra rb, "XOR", [rd, ra, rb]),
      (.not rd ra, "NOT", [rd, ra]), (.shl rd ra rb, "SHL", [rd, ra, rb]), (.shr rd ra rb, "SHR", [rd, ra, rb]),
      (.cmp ra rb, "CMP", [ra, rb]), (.clamp rd ra rb rc, "CLAMP", [rd, ra, rb, rc]),
      (.asf32 ra, "ASF32", [ra]), (.asf64 ra, "ASF64", [ra]),
      (.fromf32 rd, "FROMF32", [rd]), (.fromf64 rd, "FROMF64", [rd])],
    asmCommand p.1 = lineOf p.2.1.toList (p.2.2.map regChars)) ∧
  (∀ p ∈ [("UNPKBE V0", 0x1100), ("ADD V2, V0, V1", 0x4084), ("CLAMP V3, V0, V1, V2", 0x61C6), ("CMP V1, V2", 0x6018)],
    assembleLine p.1.toList = some [.cmd p.2] ∧ (decode p.2).map asmCommand = some p.1.toList)

/-- R67, R68: the assembler reads back the line of every command as its one word, of each of the twelve in-place spellings
as the word of its expansion, and of every host move as that move; a comment changes nothing. How the numbers of `HOSTT`
and `HOSTW` are printed is the model's choice (log entry 12). -/
def Obligations.AssemblerReadsItsOwnLines : Prop :=
  (∀ i : Instr, assembleLine (asmCommand i) = some [.cmd (encode i)]) ∧
  (∀ d b : VIdx, ∀ p ∈ [
      ("ADD.IP", [d, b], Pseudo.addIp d b, Instr.add d d b), ("SUB.IP", [d, b], .subIp d b, .sub d d b),
      ("MUL.IP", [d, b], .mulIp d b, .mul d d b), ("DIV.IP", [d, b], .divIp d b, .div d d b),
      ("REM.IP", [d, b], .remIp d b, .rem d d b), ("AND.IP", [d, b], .andIp d b, .and d d b),
      ("OR.IP", [d, b], .orIp d b, .or d d b), ("XOR.IP", [d, b], .xorIp d b, .xor d d b),
      ("SHL.IP", [d, b], .shlIp d b, .shl d d b), ("SHR.IP", [d, b], .shrIp d b, .shr d d b),
      ("NEG.IP", [d], .negIp d, .neg d d), ("NOT.IP", [d], .notIp d, .not d d)],
    expandPseudo p.2.2.1 = p.2.2.2 ∧
    assembleLine (lineOf p.1.toList (p.2.1.map regChars)) = some [.cmd (encode p.2.2.2)]) ∧
  (∀ (m : HostMove) (line : List Char), asmMove m = some line → assembleLine line = some [m]) ∧
  (∀ m : HostMove, wellFormedMove m = true → (asmMove m).isSome = true) ∧
  (asmMove (.hostWriteT 0x56 0x34 0x12) = some "HOSTT 86, 52, 18".toList ∧
    asmMove (.hostWriteW 0x800000) = some "HOSTW 8388608".toList ∧ asmMove .reset = some "RESET".toList ∧
    assembleLine "HOSTT 0x56, 0x34, 0x12".toList = some [.hostWriteT 0x56 0x34 0x12] ∧
    assembleLine "HOSTW 0x800000".toList = some [.hostWriteW 0x800000]) ∧
  (∀ line comment : List Char, assembleLine (line ++ ';' :: comment) = assembleLine line)
end

