-- ==== Sys2Proof/Laws/State.lean ====
section
/-! SUPPORT. One lemma per field per update of State, true by rfl, and reads after writes of cells and lanes, and
what each host read gives. -/

namespace Sys2Proof.Machine
open Sys2Proof

@[simp] theorem State.setV_t (s : State) (i : VIdx) (c : Cell24) : (s.setV i c).t = s.t := rfl
@[simp] theorem State.setV_w (s : State) (i : VIdx) (c : Cell24) : (s.setV i c).w = s.w := rfl
@[simp] theorem State.setV_status (s : State) (i : VIdx) (c : Cell24) : (s.setV i c).status = s.status := rfl
@[simp] theorem State.setV_fcmd (s : State) (i : VIdx) (c : Cell24) : (s.setV i c).fcmd = s.fcmd := rfl
@[simp] theorem State.setV_program (s : State) (i : VIdx) (c : Cell24) : (s.setV i c).program = s.program := rfl
@[simp] theorem State.setV_pc (s : State) (i : VIdx) (c : Cell24) : (s.setV i c).pc = s.pc := rfl
@[simp] theorem State.setW_v (s : State) (x : Wide) : (s.setW x).v = s.v := rfl
@[simp] theorem State.setW_t (s : State) (x : Wide) : (s.setW x).t = s.t := rfl
@[simp] theorem State.setW_status (s : State) (x : Wide) : (s.setW x).status = s.status := rfl
@[simp] theorem State.setW_fcmd (s : State) (x : Wide) : (s.setW x).fcmd = s.fcmd := rfl
@[simp] theorem State.setW_program (s : State) (x : Wide) : (s.setW x).program = s.program := rfl
@[simp] theorem State.setW_pc (s : State) (x : Wide) : (s.setW x).pc = s.pc := rfl
@[simp] theorem State.setT_v (s : State) (l : Lanes) : (s.setT l).v = s.v := rfl
@[simp] theorem State.setT_w (s : State) (l : Lanes) : (s.setT l).w = s.w := rfl
@[simp] theorem State.setT_status (s : State) (l : Lanes) : (s.setT l).status = s.status := rfl
@[simp] theorem State.setT_fcmd (s : State) (l : Lanes) : (s.setT l).fcmd = s.fcmd := rfl
@[simp] theorem State.setT_program (s : State) (l : Lanes) : (s.setT l).program = s.program := rfl
@[simp] theorem State.setT_pc (s : State) (l : Lanes) : (s.setT l).pc = s.pc := rfl
@[simp] theorem State.setNeg_v (s : State) (b : Bool) : (s.setNeg b).v = s.v := rfl
@[simp] theorem State.setNeg_t (s : State) (b : Bool) : (s.setNeg b).t = s.t := rfl
@[simp] theorem State.setNeg_w (s : State) (b : Bool) : (s.setNeg b).w = s.w := rfl
@[simp] theorem State.setNeg_fcmd (s : State) (b : Bool) : (s.setNeg b).fcmd = s.fcmd := rfl
@[simp] theorem State.setNeg_program (s : State) (b : Bool) : (s.setNeg b).program = s.program := rfl
@[simp] theorem State.setNeg_pc (s : State) (b : Bool) : (s.setNeg b).pc = s.pc := rfl
@[simp] theorem State.setOrder_v (s : State) (l e g : Bool) : (s.setOrder l e g).v = s.v := rfl
@[simp] theorem State.setOrder_t (s : State) (l e g : Bool) : (s.setOrder l e g).t = s.t := rfl
@[simp] theorem State.setOrder_w (s : State) (l e g : Bool) : (s.setOrder l e g).w = s.w := rfl
@[simp] theorem State.setOrder_fcmd (s : State) (l e g : Bool) : (s.setOrder l e g).fcmd = s.fcmd := rfl
@[simp] theorem State.setOrder_program (s : State) (l e g : Bool) : (s.setOrder l e g).program = s.program := rfl
@[simp] theorem State.setOrder_pc (s : State) (l e g : Bool) : (s.setOrder l e g).pc = s.pc := rfl
@[simp] theorem State.enterFault_v (s : State) (k : Cause) (x : CmdWord) : (s.enterFault k x).v = s.v := rfl
@[simp] theorem State.enterFault_t (s : State) (k : Cause) (x : CmdWord) : (s.enterFault k x).t = s.t := rfl
@[simp] theorem State.enterFault_w (s : State) (k : Cause) (x : CmdWord) : (s.enterFault k x).w = s.w := rfl
@[simp] theorem State.enterFault_program (s : State) (k : Cause) (x : CmdWord) : (s.enterFault k x).program = s.program := rfl
@[simp] theorem State.enterFault_pc (s : State) (k : Cause) (x : CmdWord) : (s.enterFault k x).pc = s.pc := rfl
@[simp] theorem State.resetUnit_program (s : State) : (s.resetUnit).program = s.program := rfl
@[simp] theorem State.resetUnit_pc (s : State) : (s.resetUnit).pc = s.pc := rfl

@[simp] theorem State.setV_v (s : State) (i : VIdx) (c : Cell24) : (s.setV i c).v = s.v.set i c := rfl
@[simp] theorem State.setW_w (s : State) (x : Wide) : (s.setW x).w = x := rfl
@[simp] theorem State.setT_t (s : State) (l : Lanes) : (s.setT l).t = l := rfl
@[simp] theorem State.setNeg_status (s : State) (b : Bool) :
    (s.setNeg b).status = { s.status with neg := b } := rfl
@[simp] theorem State.setOrder_status (s : State) (l e g : Bool) :
    (s.setOrder l e g).status = { s.status with lt := l, eq := e, gt := g } := rfl
@[simp] theorem State.enterFault_status (s : State) (k : Cause) (x : CmdWord) :
    (s.enterFault k x).status = { s.status with fault := true, cause := k } := rfl
@[simp] theorem State.enterFault_fcmd (s : State) (k : Cause) (x : CmdWord) : (s.enterFault k x).fcmd = x := rfl
@[simp] theorem State.resetUnit_v (s : State) : s.resetUnit.v = State.reset.v := rfl
@[simp] theorem State.resetUnit_t (s : State) : s.resetUnit.t = State.reset.t := rfl
@[simp] theorem State.resetUnit_w (s : State) : s.resetUnit.w = State.reset.w := rfl
@[simp] theorem State.resetUnit_status (s : State) : s.resetUnit.status = State.reset.status := rfl
@[simp] theorem State.resetUnit_fcmd (s : State) : s.resetUnit.fcmd = State.reset.fcmd := rfl

@[simp] theorem State.getV_setW (s : State) (x : Wide) (j : VIdx) : (s.setW x).getV j = s.getV j := rfl
@[simp] theorem State.getV_setT (s : State) (l : Lanes) (j : VIdx) : (s.setT l).getV j = s.getV j := rfl
@[simp] theorem State.getV_setNeg (s : State) (b : Bool) (j : VIdx) : (s.setNeg b).getV j = s.getV j := rfl
@[simp] theorem State.getV_setOrder (s : State) (l e g : Bool) (j : VIdx) :
    (s.setOrder l e g).getV j = s.getV j := rfl
@[simp] theorem State.getV_enterFault (s : State) (k : Cause) (x : CmdWord) (j : VIdx) :
    (s.enterFault k x).getV j = s.getV j := rfl

/-- A read after a write of a value cell: the cell written, every other as before (10_state.md R23). -/
theorem State.getV_setV (s : State) (i j : VIdx) (c : Cell24) :
    (s.setV i c).getV j = if j = i then c else s.getV j := by
  simp only [State.getV, State.setV, Vector.get_eq_getElem, Vector.getElem_set]
  by_cases h : j = i
  · simp [h]
  · have h' : ¬ i.val = j.val := fun e => h (Fin.ext e.symm)
    simp [h, h']

@[simp] theorem State.getV_setV_same (s : State) (i : VIdx) (c : Cell24) : (s.setV i c).getV i = c := by
  simp [State.getV_setV]

@[simp] theorem State.getV_setV_other (s : State) {i j : VIdx} (c : Cell24) (h : j ≠ i) :
    (s.setV i c).getV j = s.getV j := by
  simp [State.getV_setV, h]

@[simp] theorem State.getV_reset (j : VIdx) : State.reset.getV j = ⟨0, 0, 0⟩ := by
  revert j; decide

@[simp] theorem Lanes.lane_zero (t : Lanes) : t.lane 0 = t.t0 := rfl
@[simp] theorem Lanes.lane_one (t : Lanes) : t.lane 1 = t.t1 := rfl
@[simp] theorem Lanes.lane_two (t : Lanes) : t.lane 2 = t.t2 := rfl

/-- Lanes that read alike are equal. -/
theorem Lanes.ext_lane {t u : Lanes} (h : ∀ k, t.lane k = u.lane k) : t = u := by
  cases t; cases u
  simpa using And.intro (h 0) (And.intro (h 1) (h 2))

/-- Cells that read alike are equal files. -/
theorem State.v_eq_of_getV {s t : State} (h : ∀ j, s.getV j = t.getV j) : s.v = t.v := by
  apply Vector.ext
  intro k hk
  simpa [State.getV, Vector.get_eq_getElem] using h ⟨k, hk⟩

section HostReads
variable (s : State)

@[simp] theorem hostRead_v (i : VIdx) : hostRead (.v i) s = (u24 (s.getV i)).toNat := rfl
@[simp] theorem hostRead_t (k : Fin 3) : hostRead (.t k) s = (s.t.lane k).toNat := rfl
@[simp] theorem hostRead_w : hostRead .w s = s.w.toNat := rfl
@[simp] theorem hostRead_wLane (k : Fin 16) : hostRead (.wLane k) s = (wLane s.w k).toNat := rfl
@[simp] theorem hostRead_status : hostRead .status s = (statusWord s.status).toNat := rfl
@[simp] theorem hostRead_fcmd : hostRead .fcmd s = s.fcmd.toNat := rfl
@[simp] theorem hostRead_faultO : hostRead .faultO s = s.status.fault.toNat := rfl

end HostReads

end Sys2Proof.Machine
end

