-- ==== Sys2Proof/Laws/Ops.lean ====
section
/-! SUPPORT. For each shared operation, once, everything it can do. -/

namespace Sys2Proof.Machine
open Sys2Proof

/-- A faulted unit ignores a command (60_exceptions.md R183). -/
theorem command_faulted {s : State} (f : State → Result) (h : s.status.fault = true) :
    command s f = .next s := by
  simp [command, h]

/-- A unit that is not faulted does the command's own effect. -/
theorem command_ready {s : State} (f : State → Result) (h : s.status.fault = false) :
    command s f = f s := by
  simp [command, h]

/-- Everything a command can do: nothing on a faulted unit, its effect otherwise. -/
theorem command_next {s t : State} {f : State → Result} (h : command s f = .next t) :
    (s.status.fault = true ∧ t = s) ∨ (s.status.fault = false ∧ f s = .next t) := by
  cases hf : s.status.fault with
  | true => rw [command_faulted f hf] at h; cases h; exact .inl ⟨rfl, rfl⟩
  | false => rw [command_ready f hf] at h; exact .inr ⟨rfl, h⟩

theorem unaryCell_ready {s : State} (f : Cell24 → Cell24) (rd ra : VIdx) (h : s.status.fault = false) :
    unaryCell f rd ra s = .next (s.setV rd (f (s.getV ra))) := command_ready _ h

theorem binaryCell_ready {s : State} (f : Cell24 → Cell24 → Cell24) (rd ra rb : VIdx)
    (h : s.status.fault = false) :
    binaryCell f rd ra rb s = .next (s.setV rd (f (s.getV ra) (s.getV rb))) := command_ready _ h

theorem cellToW_ready {s : State} (f : Cell24 → Wide) (ra : VIdx) (h : s.status.fault = false) :
    cellToW f ra s = .next (s.setW (f (s.getV ra))) := command_ready _ h

theorem lowWToCell_ready {s : State} (n : Nat) (f : BitVec n → Cell24) (rd : VIdx)
    (h : s.status.fault = false) :
    lowWToCell n f rd s = .next (s.setV rd (f (lowW n s.w))) := command_ready _ h

/-- `MemRead(0, 3)` is the three lanes in order (20_memory.md R41). -/
@[simp] theorem memRead_whole (t : Lanes) : memRead t 0 3 = some [t.t0, t.t1, t.t2] := rfl

/-- `MemWrite(0, 3, [y0, y1, y2])` replaces the three lanes in order (20_memory.md R41). -/
@[simp] theorem memWrite_whole (t : Lanes) (y0 y1 y2 : Byte) :
    memWrite t 0 3 [y0, y1, y2] = some ⟨y0, y1, y2⟩ := rfl

theorem lanesToCell_ready {s : State} (f : Byte → Byte → Byte → Cell24) (rd : VIdx)
    (h : s.status.fault = false) :
    lanesToCell f rd s = .next (s.setV rd (f s.t.t0 s.t.t1 s.t.t2)) := by
  simp [lanesToCell, command_ready _ h]

theorem cellToLanes_ready {s : State} {f : Cell24 → List Byte} (ra : VIdx) {y0 y1 y2 : Byte}
    (h : s.status.fault = false) (hb : f (s.getV ra) = [y0, y1, y2]) :
    cellToLanes f ra s = .next (s.setT ⟨y0, y1, y2⟩) := by
  simp [cellToLanes, command_ready _ h, hb]

/-- `DIV` and `REM` with a zero divisor enter the fault (60_exceptions.md R189). -/
theorem divideCell_zero {s : State} (f : Cell24 → Cell24 → Cell24) (w : CmdWord) (rd ra rb : VIdx)
    (h : s.status.fault = false) (hz : u24 (s.getV rb) = 0) :
    divideCell f w rd ra rb s = .next (s.enterFault .divideByZero w) := by
  unfold divideCell
  rw [command_ready _ h, if_pos hz]

/-- `DIV` and `REM` with a divisor that is not zero write their result. -/
theorem divideCell_nonzero {s : State} (f : Cell24 → Cell24 → Cell24) (w : CmdWord) (rd ra rb : VIdx)
    (h : s.status.fault = false) (hz : u24 (s.getV rb) ≠ 0) :
    divideCell f w rd ra rb s = .next (s.setV rd (f (s.getV ra) (s.getV rb))) := by
  unfold divideCell
  rw [command_ready _ h, if_neg hz]

/-- A write of one cell changes that cell only. -/
theorem onlyCell_setV (s : State) (rd : VIdx) (c : Cell24) : Safety.OnlyCell rd s (s.setV rd c) :=
  ⟨fun _ h => State.getV_setV_other s c h, fun _ => rfl, rfl, rfl, rfl, rfl, rfl⟩

/-- A write of `W` changes `W` only. -/
theorem onlyWide_setW (s : State) (x : Wide) : Safety.OnlyWide s (s.setW x) :=
  ⟨fun _ => rfl, fun _ => rfl, rfl, rfl, rfl, rfl⟩

/-- A write of the lanes changes the lanes only. -/
theorem onlyLanes_setT (s : State) (l : Lanes) : Safety.OnlyLanes s (s.setT l) :=
  ⟨fun _ => rfl, rfl, rfl, rfl, rfl, rfl⟩

/-- A write of `NEG` changes `NEG` only. -/
theorem onlyNeg_setNeg (s : State) (b : Bool) : Safety.OnlyNeg s (s.setNeg b) :=
  ⟨fun _ => rfl, fun _ => rfl, rfl, rfl, ⟨rfl, rfl⟩, rfl, rfl, rfl, rfl, rfl⟩

/-- A write of the order flags changes them only. -/
theorem onlyOrder_setOrder (s : State) (l e g : Bool) : Safety.OnlyOrder s (s.setOrder l e g) :=
  ⟨fun _ => rfl, fun _ => rfl, rfl, rfl, ⟨rfl, rfl⟩, rfl, rfl, rfl⟩

/-- Fault entry does its three writes and no more (60_exceptions.md R182). -/
theorem faultEntered_enterFault (s : State) (k : Cause) (w : CmdWord) :
    Safety.FaultEntered k w s (s.enterFault k w) :=
  ⟨rfl, rfl, rfl, fun _ => rfl, fun _ => rfl, rfl, rfl, rfl, rfl, rfl⟩

/-- The effects a command can have on a unit that is not faulted, each with what it says of the command: where the
written cell is, and which commands reach the lanes, `W`, the flags and the faults. -/
inductive Effect (i : Instr) (s : State) : State → Prop where
  | same : Effect i s s
  | cell (rd : VIdx) (c : Cell24) (hi : Safety.destination i = some rd) : Effect i s (s.setV rd c)
  | wide (x : Wide) (hi : Safety.writesW i = true) : Effect i s (s.setW x)
  | lanes (ra : VIdx) (l : Lanes) (hi : i = .pkle ra ∨ i = .pkbe ra) : Effect i s (s.setT l)
  | neg (ra : VIdx) (b : Bool) (hi : i = .isneg ra) : Effect i s (s.setNeg b)
  | order (ra rb : VIdx) (hi : i = .cmp ra rb) :
      Effect i s (s.setOrder (cellLt (s.getV ra) (s.getV rb)) (a32 (s.getV ra) == a32 (s.getV rb))
        (cellLt (s.getV rb) (s.getV ra)))
  | divideByZero (rd ra rb : VIdx) (hi : i = .div rd ra rb ∨ i = .rem rd ra rb)
      (hz : u24 (s.getV rb) = 0) : Effect i s (s.enterFault .divideByZero (encode i))
  | clampOrder (rd ra rb rc : VIdx) (hi : i = .clamp rd ra rb rc)
      (hc : cellLt (s.getV rc) (s.getV rb) = true) : Effect i s (s.enterFault .clampOrder (encode i))

/-- No effect touches the host's program and position. -/
theorem effect_keeps_host {i : Instr} {s t : State} (h : Effect i s t) : Safety.SameHost s t := by
  cases h <;> exact ⟨rfl, rfl⟩

end Sys2Proof.Machine
end

