-- ==== Sys2Proof/Laws/Value.lean ====
section
/-! SUPPORT. The value functions of 00_scope.md R7: cells and 24-bit vectors are the same thing, and every narrowing is
`wrap24` of an exact result. -/

namespace Sys2Proof.Machine
open Sys2Proof

/-- `u24(c) = b0 + 256*b1 + 65536*b2` (00_scope.md R7). -/
theorem u24_toNat (c : Cell24) : (u24 c).toNat = c.b0.toNat + 256 * c.b1.toNat + 65536 * c.b2.toNat := by
  have h0 := c.b0.isLt
  have h1 := c.b1.isLt
  have e : (u24 c).toNat = (c.b2.toNat <<< 8 ||| c.b1.toNat) <<< 8 ||| c.b0.toNat := by
    show (c.b2 ++ c.b1 ++ c.b0).toNat = _
    rw [BitVec.toNat_append, BitVec.toNat_append]
  rw [e, ← Nat.shiftLeft_add_eq_or_of_lt h1, ← Nat.shiftLeft_add_eq_or_of_lt h0]
  simp only [Nat.shiftLeft_eq]
  omega

theorem cellOf_b0 (x : BitVec 24) : (cellOf x).b0.toNat = x.toNat % 256 := by
  simp [cellOf, BitVec.extractLsb'_toNat]

theorem cellOf_b1 (x : BitVec 24) : (cellOf x).b1.toNat = x.toNat / 256 % 256 := by
  simp [cellOf, BitVec.extractLsb'_toNat, Nat.shiftRight_eq_div_pow]

theorem cellOf_b2 (x : BitVec 24) : (cellOf x).b2.toNat = x.toNat / 65536 % 256 := by
  simp [cellOf, BitVec.extractLsb'_toNat, Nat.shiftRight_eq_div_pow]

/-- Cells with equal bytes, as numbers, are equal. -/
theorem Cell24_eq {a b : Cell24} (h0 : a.b0.toNat = b.b0.toNat) (h1 : a.b1.toNat = b.b1.toNat)
    (h2 : a.b2.toNat = b.b2.toNat) : a = b := by
  cases a; cases b
  simp only [Cell24.mk.injEq]
  exact ⟨BitVec.eq_of_toNat_eq h0, BitVec.eq_of_toNat_eq h1, BitVec.eq_of_toNat_eq h2⟩

/-- `cell(u24(c)) = c` (00_scope.md R7). -/
@[simp] theorem cellOf_u24 (c : Cell24) : cellOf (u24 c) = c := by
  have h0 := c.b0.isLt
  have h1 := c.b1.isLt
  have h2 := c.b2.isLt
  apply Cell24_eq
  · rw [cellOf_b0, u24_toNat]; omega
  · rw [cellOf_b1, u24_toNat]; omega
  · rw [cellOf_b2, u24_toNat]; omega

/-- `u24(cell(x)) = x` (00_scope.md R7). -/
@[simp] theorem u24_cellOf (x : BitVec 24) : u24 (cellOf x) = x := by
  have h := x.isLt
  apply BitVec.eq_of_toNat_eq
  rw [u24_toNat, cellOf_b0, cellOf_b1, cellOf_b2]
  omega

theorem u24_injective {a b : Cell24} (h : u24 a = u24 b) : a = b := by
  rw [← cellOf_u24 a, h, cellOf_u24]

/-- Two cells hold the same value exactly when their bytes are equal (10_state.md R22). -/
theorem s24_injective {a b : Cell24} (h : s24 a = s24 b) : a = b :=
  u24_injective (BitVec.eq_of_toInt_eq h)

theorem s24_bounds (c : Cell24) : -8388608 ≤ s24 c ∧ s24 c ≤ 8388607 := by
  have h1 := BitVec.le_toInt (u24 c)
  have h2 := BitVec.toInt_lt (x := u24 c)
  unfold s24
  omega

/-- `wrap24` keeps a value that fits (00_scope.md R7). -/
@[simp] theorem wrap24_s24 (c : Cell24) : wrap24 (s24 c) = c := by
  simp [wrap24, s24]

/-- The 32-bit widening keeps the value (00_scope.md R7). -/
@[simp] theorem a32_toInt (c : Cell24) : (a32 c).toInt = s24 c := by
  simp [a32, s24, BitVec.toInt_signExtend_of_le]

/-- Dropping bits 31:24 is reduction modulo 2^24. -/
theorem narrow32_eq_cellOf (r : BitVec 32) : narrow32 r = cellOf (r.setWidth 24) := by
  simp only [narrow32, cellOf, Cell24.mk.injEq]
  refine ⟨?_, ?_, ?_⟩ <;> ext i hi <;> simp <;> omega

/-- The low three bytes of a vector of at least 24 bits are the cell of its low 24 bits. -/
theorem fromLow24_eq_cellOf {n : Nat} (x : BitVec n) : fromLow24 x = cellOf (x.setWidth 24) := by
  simp only [fromLow24, cellOf, Cell24.mk.injEq]
  refine ⟨?_, ?_, ?_⟩ <;> ext i hi <;> simp <;> omega

/-- The low `m` bits of a vector are those of its signed value. -/
theorem ofInt_toInt_low {n m : Nat} (x : BitVec n) (h : m ≤ n) : BitVec.ofInt m x.toInt = x.setWidth m := by
  apply BitVec.eq_of_toInt_eq
  rw [BitVec.toInt_setWidth, BitVec.toInt_ofInt, BitVec.toInt_eq_toNat_bmod, Int.bmod_bmod_of_dvd]
  exact Nat.pow_dvd_pow 2 h

/-- Narrowing a 32-bit vector is `wrap24` of its signed value (46_arith.md R145). -/
theorem narrow32_eq_wrap24 (r : BitVec 32) : narrow32 r = wrap24 r.toInt := by
  rw [narrow32_eq_cellOf, wrap24, ofInt_toInt_low r (by decide)]

/-- Cells are equal when their 24-bit vectors are congruent modulo 2^24. -/
theorem wrap24_eq_iff (x y : Int) : wrap24 x = wrap24 y ↔ x % 2 ^ 24 = y % 2 ^ 24 := by
  constructor
  · intro h
    have h := congrArg u24 h
    simp only [wrap24, u24_cellOf] at h
    have h := congrArg BitVec.toNat h
    simp only [BitVec.toNat_ofInt] at h
    have a := Int.emod_nonneg x (show (2 ^ 24 : Int) ≠ 0 by decide)
    have b := Int.emod_nonneg y (show (2 ^ 24 : Int) ≠ 0 by decide)
    have e : ((2 ^ 24 : Nat) : Int) = 2 ^ 24 := by decide
    rw [e] at h
    omega
  · intro h
    unfold wrap24
    congr 1
    apply BitVec.eq_of_toNat_eq
    simp only [BitVec.toNat_ofInt]
    have e : ((2 ^ 24 : Nat) : Int) = 2 ^ 24 := by decide
    rw [e, h]

/-- The order of the widened values is the order of the values (45_compare.md R140). -/
theorem cellLt_iff (a b : Cell24) : cellLt a b = true ↔ s24 a < s24 b := by
  simp [cellLt, BitVec.slt_eq_decide]

/-- Byte lane `k` of `W` as a number (10_state.md R26, 20_memory.md R46). -/
theorem wLane_toNat (w : Wide) (k : Fin 16) : (wLane w k).toNat = w.toNat / 2 ^ (8 * k.val) % 256 := by
  simp [wLane, BitVec.extractLsb'_toNat, Nat.shiftRight_eq_div_pow]

end Sys2Proof.Machine
end

