-- ==== Sys2Proof/Laws/Exec.lean ====
section
/-! SUPPORT. What a command and a step can do. First one equation per instruction, on a unit that is not faulted; then the
inversion lemmas that later proofs cite instead of unfolding exec. -/

namespace Sys2Proof.Machine
open Sys2Proof

section Ready
variable {s : State}

theorem exec_nop (hf : s.status.fault = false) :
    exec .nop s = .next s := if_neg (by simp [hf])

theorem exec_mov (rd ra : VIdx) (hf : s.status.fault = false) :
    exec (.mov rd ra) s = .next (s.setV rd (s.getV ra)) := unaryCell_ready id rd ra hf

theorem exec_zero (rd : VIdx) (hf : s.status.fault = false) :
    exec (.zero rd) s = .next (s.setV rd zeroCell) := if_neg (by simp [hf])

theorem exec_unpkle (rd : VIdx) (hf : s.status.fault = false) :
    exec (.unpkle rd) s = .next (s.setV rd ⟨s.t.t0, s.t.t1, s.t.t2⟩) :=
  lanesToCell_ready (fun y0 y1 y2 => ⟨y0, y1, y2⟩) rd hf

theorem exec_unpkbe (rd : VIdx) (hf : s.status.fault = false) :
    exec (.unpkbe rd) s = .next (s.setV rd ⟨s.t.t2, s.t.t1, s.t.t0⟩) :=
  lanesToCell_ready (fun y0 y1 y2 => ⟨y2, y1, y0⟩) rd hf

theorem exec_pkle (ra : VIdx) (hf : s.status.fault = false) :
    exec (.pkle ra) s = .next (s.setT ⟨(s.getV ra).b0, (s.getV ra).b1, (s.getV ra).b2⟩) :=
  cellToLanes_ready (f := fun c => [c.b0, c.b1, c.b2]) ra hf rfl

theorem exec_pkbe (ra : VIdx) (hf : s.status.fault = false) :
    exec (.pkbe ra) s = .next (s.setT ⟨(s.getV ra).b2, (s.getV ra).b1, (s.getV ra).b0⟩) :=
  cellToLanes_ready (f := fun c => [c.b2, c.b1, c.b0]) ra hf rfl

theorem exec_isneg (ra : VIdx) (hf : s.status.fault = false) :
    exec (.isneg ra) s = .next (s.setNeg (isNegative (s.getV ra))) := if_neg (by simp [hf])

theorem exec_asi8 (ra : VIdx) (hf : s.status.fault = false) :
    exec (.asi8 ra) s = .next (s.setW (narrowTo8 (s.getV ra))) := cellToW_ready _ ra hf

theorem exec_asi16 (ra : VIdx) (hf : s.status.fault = false) :
    exec (.asi16 ra) s = .next (s.setW (narrowTo16 (s.getV ra))) := cellToW_ready _ ra hf

theorem exec_asi32 (ra : VIdx) (hf : s.status.fault = false) :
    exec (.asi32 ra) s = .next (s.setW (signWiden 32 (s.getV ra))) := cellToW_ready _ ra hf

theorem exec_asi64 (ra : VIdx) (hf : s.status.fault = false) :
    exec (.asi64 ra) s = .next (s.setW (signWiden 64 (s.getV ra))) := cellToW_ready _ ra hf

theorem exec_asi128 (ra : VIdx) (hf : s.status.fault = false) :
    exec (.asi128 ra) s = .next (s.setW (signWiden 128 (s.getV ra))) := cellToW_ready _ ra hf

theorem exec_asu8 (ra : VIdx) (hf : s.status.fault = false) :
    exec (.asu8 ra) s = .next (s.setW (narrowTo8 (s.getV ra))) := cellToW_ready _ ra hf

theorem exec_asu16 (ra : VIdx) (hf : s.status.fault = false) :
    exec (.asu16 ra) s = .next (s.setW (narrowTo16 (s.getV ra))) := cellToW_ready _ ra hf

theorem exec_asu32 (ra : VIdx) (hf : s.status.fault = false) :
    exec (.asu32 ra) s = .next (s.setW (zeroWiden 32 (s.getV ra))) := cellToW_ready _ ra hf

theorem exec_asu64 (ra : VIdx) (hf : s.status.fault = false) :
    exec (.asu64 ra) s = .next (s.setW (zeroWiden 64 (s.getV ra))) := cellToW_ready _ ra hf

theorem exec_asu128 (ra : VIdx) (hf : s.status.fault = false) :
    exec (.asu128 ra) s = .next (s.setW (zeroWiden 128 (s.getV ra))) := cellToW_ready _ ra hf

theorem exec_fromi8 (rd : VIdx) (hf : s.status.fault = false) :
    exec (.fromi8 rd) s = .next (s.setV rd (fromSigned8 (lowW 8 s.w))) := lowWToCell_ready 8 _ rd hf

theorem exec_fromi16 (rd : VIdx) (hf : s.status.fault = false) :
    exec (.fromi16 rd) s = .next (s.setV rd (fromSigned16 (lowW 16 s.w))) := lowWToCell_ready 16 _ rd hf

theorem exec_fromi32 (rd : VIdx) (hf : s.status.fault = false) :
    exec (.fromi32 rd) s = .next (s.setV rd (fromLow24 (lowW 32 s.w))) := lowWToCell_ready 32 _ rd hf

theorem exec_fromi64 (rd : VIdx) (hf : s.status.fault = false) :
    exec (.fromi64 rd) s = .next (s.setV rd (fromLow24 (lowW 64 s.w))) := lowWToCell_ready 64 _ rd hf

theorem exec_fromi128 (rd : VIdx) (hf : s.status.fault = false) :
    exec (.fromi128 rd) s = .next (s.setV rd (fromLow24 (lowW 128 s.w))) := lowWToCell_ready 128 _ rd hf

theorem exec_fromu8 (rd : VIdx) (hf : s.status.fault = false) :
    exec (.fromu8 rd) s = .next (s.setV rd (fromUnsigned8 (lowW 8 s.w))) := lowWToCell_ready 8 _ rd hf

theorem exec_fromu16 (rd : VIdx) (hf : s.status.fault = false) :
    exec (.fromu16 rd) s = .next (s.setV rd (fromUnsigned16 (lowW 16 s.w))) := lowWToCell_ready 16 _ rd hf

theorem exec_fromu32 (rd : VIdx) (hf : s.status.fault = false) :
    exec (.fromu32 rd) s = .next (s.setV rd (fromLow24 (lowW 32 s.w))) := lowWToCell_ready 32 _ rd hf

theorem exec_fromu64 (rd : VIdx) (hf : s.status.fault = false) :
    exec (.fromu64 rd) s = .next (s.setV rd (fromLow24 (lowW 64 s.w))) := lowWToCell_ready 64 _ rd hf

theorem exec_fromu128 (rd : VIdx) (hf : s.status.fault = false) :
    exec (.fromu128 rd) s = .next (s.setV rd (fromLow24 (lowW 128 s.w))) := lowWToCell_ready 128 _ rd hf

theorem exec_fromu24 (rd : VIdx) (hf : s.status.fault = false) :
    exec (.fromu24 rd) s = .next (s.setV rd (fromLow24 (lowW 24 s.w))) := lowWToCell_ready 24 _ rd hf

theorem exec_add (rd ra rb : VIdx) (hf : s.status.fault = false) :
    exec (.add rd ra rb) s = .next (s.setV rd (addCell (s.getV ra) (s.getV rb))) := binaryCell_ready _ rd ra rb hf

theorem exec_sub (rd ra rb : VIdx) (hf : s.status.fault = false) :
    exec (.sub rd ra rb) s = .next (s.setV rd (subCell (s.getV ra) (s.getV rb))) := binaryCell_ready _ rd ra rb hf

theorem exec_mul (rd ra rb : VIdx) (hf : s.status.fault = false) :
    exec (.mul rd ra rb) s = .next (s.setV rd (mulCell (s.getV ra) (s.getV rb))) := binaryCell_ready _ rd ra rb hf

theorem exec_neg (rd ra : VIdx) (hf : s.status.fault = false) :
    exec (.neg rd ra) s = .next (s.setV rd (negCell (s.getV ra))) := unaryCell_ready negCell rd ra hf

theorem exec_and (rd ra rb : VIdx) (hf : s.status.fault = false) :
    exec (.and rd ra rb) s = .next (s.setV rd (bytewise (· &&& ·) (s.getV ra) (s.getV rb))) := binaryCell_ready _ rd ra rb hf

theorem exec_or (rd ra rb : VIdx) (hf : s.status.fault = false) :
    exec (.or rd ra rb) s = .next (s.setV rd (bytewise (· ||| ·) (s.getV ra) (s.getV rb))) := binaryCell_ready _ rd ra rb hf

theorem exec_xor (rd ra rb : VIdx) (hf : s.status.fault = false) :
    exec (.xor rd ra rb) s = .next (s.setV rd (bytewise (· ^^^ ·) (s.getV ra) (s.getV rb))) := binaryCell_ready _ rd ra rb hf

theorem exec_not (rd ra : VIdx) (hf : s.status.fault = false) :
    exec (.not rd ra) s = .next (s.setV rd (notCell (s.getV ra))) := unaryCell_ready notCell rd ra hf

theorem exec_shl (rd ra rb : VIdx) (hf : s.status.fault = false) :
    exec (.shl rd ra rb) s = .next (s.setV rd (shiftCell Config.shiftOor shlBy (s.getV ra) (s.getV rb))) := binaryCell_ready _ rd ra rb hf

theorem exec_shr (rd ra rb : VIdx) (hf : s.status.fault = false) :
    exec (.shr rd ra rb) s = .next (s.setV rd (shiftCell Config.shiftOor shrBy (s.getV ra) (s.getV rb))) := binaryCell_ready _ rd ra rb hf

theorem exec_cmp (ra rb : VIdx) (hf : s.status.fault = false) :
    exec (.cmp ra rb) s = .next (s.setOrder (cellLt (s.getV ra) (s.getV rb))
      (a32 (s.getV ra) == a32 (s.getV rb)) (cellLt (s.getV rb) (s.getV ra))) := if_neg (by simp [hf])

theorem exec_asf32 (ra : VIdx) (hf : s.status.fault = false) :
    exec (.asf32 ra) s = .next (s.setW (toW 32 (f32bits (s24 (s.getV ra))))) :=
  cellToW_ready (fun c => toW 32 (f32bits (s24 c))) ra hf

theorem exec_asf64 (ra : VIdx) (hf : s.status.fault = false) :
    exec (.asf64 ra) s = .next (s.setW (toW 64 (f64bits (s24 (s.getV ra))))) :=
  cellToW_ready (fun c => toW 64 (f64bits (s24 c))) ra hf

theorem exec_fromf32 (rd : VIdx) (hf : s.status.fault = false) :
    exec (.fromf32 rd) s = .next (s.setV rd (fromFloat Config.f2i32 (lowW 32 s.w))) := lowWToCell_ready 32 _ rd hf

theorem exec_fromf64 (rd : VIdx) (hf : s.status.fault = false) :
    exec (.fromf64 rd) s = .next (s.setV rd (fromFloat Config.f2i64 (lowW 64 s.w))) := lowWToCell_ready 64 _ rd hf

theorem exec_div_zero (rd ra rb : VIdx) (hf : s.status.fault = false) (hz : u24 (s.getV rb) = 0) :
    exec (.div rd ra rb) s = .next (s.enterFault .divideByZero (encode (.div rd ra rb))) :=
  divideCell_zero _ _ rd ra rb hf hz

theorem exec_div_nonzero (rd ra rb : VIdx) (hf : s.status.fault = false) (hz : u24 (s.getV rb) ≠ 0) :
    exec (.div rd ra rb) s = .next (s.setV rd (divCell (s.getV ra) (s.getV rb))) :=
  divideCell_nonzero _ _ rd ra rb hf hz

theorem exec_rem_zero (rd ra rb : VIdx) (hf : s.status.fault = false) (hz : u24 (s.getV rb) = 0) :
    exec (.rem rd ra rb) s = .next (s.enterFault .divideByZero (encode (.rem rd ra rb))) :=
  divideCell_zero _ _ rd ra rb hf hz

theorem exec_rem_nonzero (rd ra rb : VIdx) (hf : s.status.fault = false) (hz : u24 (s.getV rb) ≠ 0) :
    exec (.rem rd ra rb) s = .next (s.setV rd (remCell (s.getV ra) (s.getV rb))) :=
  divideCell_nonzero _ _ rd ra rb hf hz

/-- `CLAMP` with min > max enters the fault (60_exceptions.md R190). -/
theorem exec_clamp_unordered (rd ra rb rc : VIdx) (hf : s.status.fault = false)
    (hc : cellLt (s.getV rc) (s.getV rb) = true) :
    exec (.clamp rd ra rb rc) s = .next (s.enterFault .clampOrder (encode (.clamp rd ra rb rc))) := by
  show execClamp rd ra rb rc s = _
  unfold execClamp
  rw [command_ready _ hf, if_pos hc]

/-- `CLAMP` with min <= max writes the clamped cell (48_clamp_misc.md R171). -/
theorem exec_clamp_ordered (rd ra rb rc : VIdx) (hf : s.status.fault = false)
    (hc : cellLt (s.getV rc) (s.getV rb) = false) :
    exec (.clamp rd ra rb rc) s = .next (s.setV rd (clampCell (s.getV ra) (s.getV rb) (s.getV rc))) := by
  show execClamp rd ra rb rc s = _
  unfold execClamp
  rw [command_ready _ hf, if_neg (by simp [hc])]

end Ready

/-- A faulted unit ignores every command (60_exceptions.md R183). -/
theorem exec_faulted (i : Instr) {s : State} (hf : s.status.fault = true) : exec i s = .next s := by
  cases i <;> exact if_pos hf

/-- Every command answers a next state on a unit that is not faulted, and with one of the listed effects. -/
theorem exec_effect_ready (i : Instr) {s : State} (hf : s.status.fault = false) :
    ∃ t, exec i s = .next t ∧ Effect i s t := by
  cases i with
  | nop => exact ⟨_, exec_nop hf, .same⟩
  | mov rd ra => exact ⟨_, exec_mov rd ra hf, .cell rd _ rfl⟩
  | zero rd => exact ⟨_, exec_zero rd hf, .cell rd _ rfl⟩
  | unpkle rd => exact ⟨_, exec_unpkle rd hf, .cell rd _ rfl⟩
  | unpkbe rd => exact ⟨_, exec_unpkbe rd hf, .cell rd _ rfl⟩
  | pkle ra => exact ⟨_, exec_pkle ra hf, .lanes ra _ (.inl rfl)⟩
  | pkbe ra => exact ⟨_, exec_pkbe ra hf, .lanes ra _ (.inr rfl)⟩
  | isneg ra => exact ⟨_, exec_isneg ra hf, .neg ra _ rfl⟩
  | asi8 ra => exact ⟨_, exec_asi8 ra hf, .wide _ rfl⟩
  | asi16 ra => exact ⟨_, exec_asi16 ra hf, .wide _ rfl⟩
  | asi32 ra => exact ⟨_, exec_asi32 ra hf, .wide _ rfl⟩
  | asi64 ra => exact ⟨_, exec_asi64 ra hf, .wide _ rfl⟩
  | asi128 ra => exact ⟨_, exec_asi128 ra hf, .wide _ rfl⟩
  | asu8 ra => exact ⟨_, exec_asu8 ra hf, .wide _ rfl⟩
  | asu16 ra => exact ⟨_, exec_asu16 ra hf, .wide _ rfl⟩
  | asu32 ra => exact ⟨_, exec_asu32 ra hf, .wide _ rfl⟩
  | asu64 ra => exact ⟨_, exec_asu64 ra hf, .wide _ rfl⟩
  | asu128 ra => exact ⟨_, exec_asu128 ra hf, .wide _ rfl⟩
  | fromi8 rd => exact ⟨_, exec_fromi8 rd hf, .cell rd _ rfl⟩
  | fromi16 rd => exact ⟨_, exec_fromi16 rd hf, .cell rd _ rfl⟩
  | fromi32 rd => exact ⟨_, exec_fromi32 rd hf, .cell rd _ rfl⟩
  | fromi64 rd => exact ⟨_, exec_fromi64 rd hf, .cell rd _ rfl⟩
  | fromi128 rd => exact ⟨_, exec_fromi128 rd hf, .cell rd _ rfl⟩
  | fromu8 rd => exact ⟨_, exec_fromu8 rd hf, .cell rd _ rfl⟩
  | fromu16 rd => exact ⟨_, exec_fromu16 rd hf, .cell rd _ rfl⟩
  | fromu32 rd => exact ⟨_, exec_fromu32 rd hf, .cell rd _ rfl⟩
  | fromu64 rd => exact ⟨_, exec_fromu64 rd hf, .cell rd _ rfl⟩
  | fromu128 rd => exact ⟨_, exec_fromu128 rd hf, .cell rd _ rfl⟩
  | fromu24 rd => exact ⟨_, exec_fromu24 rd hf, .cell rd _ rfl⟩
  | add rd ra rb => exact ⟨_, exec_add rd ra rb hf, .cell rd _ rfl⟩
  | sub rd ra rb => exact ⟨_, exec_sub rd ra rb hf, .cell rd _ rfl⟩
  | mul rd ra rb => exact ⟨_, exec_mul rd ra rb hf, .cell rd _ rfl⟩
  | div rd ra rb =>
    by_cases hz : u24 (s.getV rb) = 0
    · exact ⟨_, exec_div_zero rd ra rb hf hz, .divideByZero rd ra rb (.inl rfl) hz⟩
    · exact ⟨_, exec_div_nonzero rd ra rb hf hz, .cell rd _ rfl⟩
  | rem rd ra rb =>
    by_cases hz : u24 (s.getV rb) = 0
    · exact ⟨_, exec_rem_zero rd ra rb hf hz, .divideByZero rd ra rb (.inr rfl) hz⟩
    · exact ⟨_, exec_rem_nonzero rd ra rb hf hz, .cell rd _ rfl⟩
  | neg rd ra => exact ⟨_, exec_neg rd ra hf, .cell rd _ rfl⟩
  | and rd ra rb => exact ⟨_, exec_and rd ra rb hf, .cell rd _ rfl⟩
  | or rd ra rb => exact ⟨_, exec_or rd ra rb hf, .cell rd _ rfl⟩
  | xor rd ra rb => exact ⟨_, exec_xor rd ra rb hf, .cell rd _ rfl⟩
  | not rd ra => exact ⟨_, exec_not rd ra hf, .cell rd _ rfl⟩
  | shl rd ra rb => exact ⟨_, exec_shl rd ra rb hf, .cell rd _ rfl⟩
  | shr rd ra rb => exact ⟨_, exec_shr rd ra rb hf, .cell rd _ rfl⟩
  | cmp ra rb => exact ⟨_, exec_cmp ra rb hf, .order ra rb rfl⟩
  | clamp rd ra rb rc =>
    cases hc : cellLt (s.getV rc) (s.getV rb) with
    | true => exact ⟨_, exec_clamp_unordered rd ra rb rc hf hc, .clampOrder rd ra rb rc rfl hc⟩
    | false => exact ⟨_, exec_clamp_ordered rd ra rb rc hf hc, .cell rd _ rfl⟩
  | asf32 ra => exact ⟨_, exec_asf32 ra hf, .wide _ rfl⟩
  | asf64 ra => exact ⟨_, exec_asf64 ra hf, .wide _ rfl⟩
  | fromf32 rd => exact ⟨_, exec_fromf32 rd hf, .cell rd _ rfl⟩
  | fromf64 rd => exact ⟨_, exec_fromf64 rd hf, .cell rd _ rfl⟩

/-- Everything a command can do: nothing on a faulted unit, one of the listed effects otherwise. -/
theorem exec_next {i : Instr} {s t : State} (h : exec i s = .next t) :
    (s.status.fault = true ∧ t = s) ∨ (s.status.fault = false ∧ Effect i s t) := by
  cases hf : s.status.fault with
  | true =>
    rw [exec_faulted i hf] at h
    cases h
    exact .inl ⟨rfl, rfl⟩
  | false =>
    obtain ⟨u, hu, he⟩ := exec_effect_ready i hf
    rw [hu] at h
    cases h
    exact .inr ⟨rfl, he⟩

/-- Every command answers a next state: no command stops the machine (60_exceptions.md R187). -/
theorem exec_answers (i : Instr) (s : State) : ∃ t, exec i s = .next t := by
  cases hf : s.status.fault with
  | true => exact ⟨s, exec_faulted i hf⟩
  | false => exact (exec_effect_ready i hf).imp fun _ h => h.1

/-- The effect of a host move that is not a command word. -/
theorem makeMove_next {m : HostMove} {s t : State} (h : makeMove m s = .next t) :
    (s.status.fault = true ∧ m ≠ .reset ∧ t = s) ∨ (m = .reset ∧ t = s.resetUnit) ∨
    (s.status.fault = false ∧
      ((∃ y0 y1 y2, m = .hostWriteT y0 y1 y2 ∧ t = s.setT ⟨y0, y1, y2⟩) ∨
       (∃ x, m = .hostWriteW x ∧ t = s.setW x) ∨
       (∃ w, m = .cmd w ∧ decode w = none ∧ t = s.enterFault .illegalCommand w) ∨
       (∃ w i, m = .cmd w ∧ decode w = some i ∧ exec i s = .next t))) := by
  cases m with
  | reset => cases h; exact .inr (.inl ⟨rfl, rfl⟩)
  | hostWriteT y0 y1 y2 =>
    cases hf : s.status.fault with
    | true => simp [makeMove, hostWrite, hf] at h; exact .inl ⟨rfl, by simp, h.symm⟩
    | false =>
      simp [makeMove, hostWrite, hf] at h
      exact .inr (.inr ⟨rfl, .inl ⟨y0, y1, y2, rfl, h.symm⟩⟩)
  | hostWriteW x =>
    cases hf : s.status.fault with
    | true => simp [makeMove, hostWrite, hf] at h; exact .inl ⟨rfl, by simp, h.symm⟩
    | false =>
      simp [makeMove, hostWrite, hf] at h
      exact .inr (.inr ⟨rfl, .inr (.inl ⟨x, rfl, h.symm⟩)⟩)
  | cmd w =>
    cases hf : s.status.fault with
    | true => simp [makeMove, issueWord, hf] at h; exact .inl ⟨rfl, by simp, h.symm⟩
    | false =>
      simp only [makeMove, issueWord, hf, Bool.false_eq_true, if_false] at h
      refine .inr (.inr ⟨rfl, .inr (.inr ?_)⟩)
      cases hd : decodeWord w with
      | illegal why =>
        rw [hd] at h; cases h
        exact .inl ⟨w, rfl, by simp [decode, hd], rfl⟩
      | command i =>
        rw [hd] at h
        exact .inr ⟨w, i, rfl, by simp [decode, hd], h⟩

/-- No host move touches the host's program and position. -/
theorem makeMove_keeps_host {m : HostMove} {s t : State} (h : makeMove m s = .next t) : Safety.SameHost s t := by
  rcases makeMove_next h with
    ⟨_, _, rfl⟩ | ⟨_, rfl⟩ | ⟨hf, ⟨_, _, _, _, rfl⟩ | ⟨_, _, rfl⟩ | ⟨_, _, _, rfl⟩ | ⟨_, _, _, _, he⟩⟩
  iterate 5 exact ⟨rfl, rfl⟩
  rcases exec_next he with ⟨_, rfl⟩ | ⟨_, h⟩
  · exact ⟨rfl, rfl⟩
  · exact effect_keeps_host h

/-- Every host move answers a next state. -/
theorem makeMove_answers (m : HostMove) (s : State) : ∃ t, makeMove m s = .next t := by
  cases m with
  | reset => exact ⟨_, rfl⟩
  | hostWriteT y0 y1 y2 => exact ⟨_, rfl⟩
  | hostWriteW x => exact ⟨_, rfl⟩
  | cmd w =>
    cases hf : s.status.fault with
    | true => exact ⟨s, by simp [makeMove, issueWord, hf]⟩
    | false =>
      simp only [makeMove, issueWord, hf, Bool.false_eq_true, if_false]
      cases decodeWord w with
      | illegal why => exact ⟨_, rfl⟩
      | command i => exact exec_answers i s

/-- A step is the move at `pc` and then `pc + 1` (10_state.md R28). -/
theorem step_next {s t : State} (h : step s = .next t) :
    ∃ m u, s.program[s.pc]? = some m ∧ makeMove m s = .next u ∧ t = { u with pc := u.pc + 1 } := by
  unfold step currentMove at h
  cases hm : s.program[s.pc]? with
  | none => rw [hm] at h; cases h
  | some m =>
    rw [hm] at h
    obtain ⟨u, hu⟩ := makeMove_answers m s
    simp only [hu, advancePc] at h
    cases h
    exact ⟨m, u, rfl, hu, rfl⟩

/-- The step of a state whose move at `pc` answers `u`. -/
theorem step_of_move {s u : State} {m : HostMove} (hm : s.program[s.pc]? = some m)
    (hu : makeMove m s = .next u) : step s = .next { u with pc := u.pc + 1 } := by
  simp [step, currentMove, hm, hu, advancePc]

end Sys2Proof.Machine
end

