-- ==== Sys2Proof/Laws/PerInstr.lean ====
section
/-! SUPPORT. Statements per instruction: the word an instruction encodes to is well formed, by the check of
WellFormed.lean, which is written apart from the decoder's table. -/

namespace Sys2Proof.Laws

/-- The word of the instruction has an assigned opcode and zero unused fields (30_encoding.md R63, R65). -/
def EncodedWordWellFormed.Statement (i : Instr) : Prop := wellFormedWord (encode i) = true

theorem EncodedWordWellFormed.nop : EncodedWordWellFormed.Statement .nop := by
  unfold EncodedWordWellFormed.Statement; decide

theorem EncodedWordWellFormed.mov :
    ∀ rd ra, EncodedWordWellFormed.Statement (.mov rd ra) := by
  unfold EncodedWordWellFormed.Statement; decide

theorem EncodedWordWellFormed.zero :
    ∀ rd, EncodedWordWellFormed.Statement (.zero rd) := by
  unfold EncodedWordWellFormed.Statement; decide

theorem EncodedWordWellFormed.unpkle :
    ∀ rd, EncodedWordWellFormed.Statement (.unpkle rd) := by
  unfold EncodedWordWellFormed.Statement; decide

theorem EncodedWordWellFormed.unpkbe :
    ∀ rd, EncodedWordWellFormed.Statement (.unpkbe rd) := by
  unfold EncodedWordWellFormed.Statement; decide

theorem EncodedWordWellFormed.pkle :
    ∀ ra, EncodedWordWellFormed.Statement (.pkle ra) := by
  unfold EncodedWordWellFormed.Statement; decide

theorem EncodedWordWellFormed.pkbe :
    ∀ ra, EncodedWordWellFormed.Statement (.pkbe ra) := by
  unfold EncodedWordWellFormed.Statement; decide

theorem EncodedWordWellFormed.isneg :
    ∀ ra, EncodedWordWellFormed.Statement (.isneg ra) := by
  unfold EncodedWordWellFormed.Statement; decide

theorem EncodedWordWellFormed.asi8 :
    ∀ ra, EncodedWordWellFormed.Statement (.asi8 ra) := by
  unfold EncodedWordWellFormed.Statement; decide

theorem EncodedWordWellFormed.asi16 :
    ∀ ra, EncodedWordWellFormed.Statement (.asi16 ra) := by
  unfold EncodedWordWellFormed.Statement; decide

theorem EncodedWordWellFormed.asi32 :
    ∀ ra, EncodedWordWellFormed.Statement (.asi32 ra) := by
  unfold EncodedWordWellFormed.Statement; decide

theorem EncodedWordWellFormed.asi64 :
    ∀ ra, EncodedWordWellFormed.Statement (.asi64 ra) := by
  unfold EncodedWordWellFormed.Statement; decide

theorem EncodedWordWellFormed.asi128 :
    ∀ ra, EncodedWordWellFormed.Statement (.asi128 ra) := by
  unfold EncodedWordWellFormed.Statement; decide

theorem EncodedWordWellFormed.asu8 :
    ∀ ra, EncodedWordWellFormed.Statement (.asu8 ra) := by
  unfold EncodedWordWellFormed.Statement; decide

theorem EncodedWordWellFormed.asu16 :
    ∀ ra, EncodedWordWellFormed.Statement (.asu16 ra) := by
  unfold EncodedWordWellFormed.Statement; decide

theorem EncodedWordWellFormed.asu32 :
    ∀ ra, EncodedWordWellFormed.Statement (.asu32 ra) := by
  unfold EncodedWordWellFormed.Statement; decide

theorem EncodedWordWellFormed.asu64 :
    ∀ ra, EncodedWordWellFormed.Statement (.asu64 ra) := by
  unfold EncodedWordWellFormed.Statement; decide

theorem EncodedWordWellFormed.asu128 :
    ∀ ra, EncodedWordWellFormed.Statement (.asu128 ra) := by
  unfold EncodedWordWellFormed.Statement; decide

theorem EncodedWordWellFormed.fromi8 :
    ∀ rd, EncodedWordWellFormed.Statement (.fromi8 rd) := by
  unfold EncodedWordWellFormed.Statement; decide

theorem EncodedWordWellFormed.fromi16 :
    ∀ rd, EncodedWordWellFormed.Statement (.fromi16 rd) := by
  unfold EncodedWordWellFormed.Statement; decide

theorem EncodedWordWellFormed.fromi32 :
    ∀ rd, EncodedWordWellFormed.Statement (.fromi32 rd) := by
  unfold EncodedWordWellFormed.Statement; decide

theorem EncodedWordWellFormed.fromi64 :
    ∀ rd, EncodedWordWellFormed.Statement (.fromi64 rd) := by
  unfold EncodedWordWellFormed.Statement; decide

theorem EncodedWordWellFormed.fromi128 :
    ∀ rd, EncodedWordWellFormed.Statement (.fromi128 rd) := by
  unfold EncodedWordWellFormed.Statement; decide

theorem EncodedWordWellFormed.fromu8 :
    ∀ rd, EncodedWordWellFormed.Statement (.fromu8 rd) := by
  unfold EncodedWordWellFormed.Statement; decide

theorem EncodedWordWellFormed.fromu16 :
    ∀ rd, EncodedWordWellFormed.Statement (.fromu16 rd) := by
  unfold EncodedWordWellFormed.Statement; decide

theorem EncodedWordWellFormed.fromu32 :
    ∀ rd, EncodedWordWellFormed.Statement (.fromu32 rd) := by
  unfold EncodedWordWellFormed.Statement; decide

theorem EncodedWordWellFormed.fromu64 :
    ∀ rd, EncodedWordWellFormed.Statement (.fromu64 rd) := by
  unfold EncodedWordWellFormed.Statement; decide

theorem EncodedWordWellFormed.fromu128 :
    ∀ rd, EncodedWordWellFormed.Statement (.fromu128 rd) := by
  unfold EncodedWordWellFormed.Statement; decide

theorem EncodedWordWellFormed.fromu24 :
    ∀ rd, EncodedWordWellFormed.Statement (.fromu24 rd) := by
  unfold EncodedWordWellFormed.Statement; decide

theorem EncodedWordWellFormed.add :
    ∀ rd ra rb, EncodedWordWellFormed.Statement (.add rd ra rb) := by
  unfold EncodedWordWellFormed.Statement; decide

theorem EncodedWordWellFormed.sub :
    ∀ rd ra rb, EncodedWordWellFormed.Statement (.sub rd ra rb) := by
  unfold EncodedWordWellFormed.Statement; decide

theorem EncodedWordWellFormed.mul :
    ∀ rd ra rb, EncodedWordWellFormed.Statement (.mul rd ra rb) := by
  unfold EncodedWordWellFormed.Statement; decide

theorem EncodedWordWellFormed.div :
    ∀ rd ra rb, EncodedWordWellFormed.Statement (.div rd ra rb) := by
  unfold EncodedWordWellFormed.Statement; decide

theorem EncodedWordWellFormed.rem :
    ∀ rd ra rb, EncodedWordWellFormed.Statement (.rem rd ra rb) := by
  unfold EncodedWordWellFormed.Statement; decide

theorem EncodedWordWellFormed.neg :
    ∀ rd ra, EncodedWordWellFormed.Statement (.neg rd ra) := by
  unfold EncodedWordWellFormed.Statement; decide

theorem EncodedWordWellFormed.and :
    ∀ rd ra rb, EncodedWordWellFormed.Statement (.and rd ra rb) := by
  unfold EncodedWordWellFormed.Statement; decide

theorem EncodedWordWellFormed.or :
    ∀ rd ra rb, EncodedWordWellFormed.Statement (.or rd ra rb) := by
  unfold EncodedWordWellFormed.Statement; decide

theorem EncodedWordWellFormed.xor :
    ∀ rd ra rb, EncodedWordWellFormed.Statement (.xor rd ra rb) := by
  unfold EncodedWordWellFormed.Statement; decide

theorem EncodedWordWellFormed.not :
    ∀ rd ra, EncodedWordWellFormed.Statement (.not rd ra) := by
  unfold EncodedWordWellFormed.Statement; decide

theorem EncodedWordWellFormed.shl :
    ∀ rd ra rb, EncodedWordWellFormed.Statement (.shl rd ra rb) := by
  unfold EncodedWordWellFormed.Statement; decide

theorem EncodedWordWellFormed.shr :
    ∀ rd ra rb, EncodedWordWellFormed.Statement (.shr rd ra rb) := by
  unfold EncodedWordWellFormed.Statement; decide

theorem EncodedWordWellFormed.cmp :
    ∀ ra rb, EncodedWordWellFormed.Statement (.cmp ra rb) := by
  unfold EncodedWordWellFormed.Statement; decide

theorem EncodedWordWellFormed.clamp :
    ∀ rd ra rb rc, EncodedWordWellFormed.Statement (.clamp rd ra rb rc) := by
  unfold EncodedWordWellFormed.Statement; decide

theorem EncodedWordWellFormed.asf32 :
    ∀ ra, EncodedWordWellFormed.Statement (.asf32 ra) := by
  unfold EncodedWordWellFormed.Statement; decide

theorem EncodedWordWellFormed.asf64 :
    ∀ ra, EncodedWordWellFormed.Statement (.asf64 ra) := by
  unfold EncodedWordWellFormed.Statement; decide

theorem EncodedWordWellFormed.fromf32 :
    ∀ rd, EncodedWordWellFormed.Statement (.fromf32 rd) := by
  unfold EncodedWordWellFormed.Statement; decide

theorem EncodedWordWellFormed.fromf64 :
    ∀ rd, EncodedWordWellFormed.Statement (.fromf64 rd) := by
  unfold EncodedWordWellFormed.Statement; decide

end Sys2Proof.Laws
end

