-- ==== Sys2Proof/Tests/Slice0.lean ====
section
/-! SUPPORT. Tests. Expected values are the spec's own: its examples, its test vectors and its encoding tables. -/

namespace Sys2Proof.Tests
open Sys2Proof Sys2Proof.Machine Sys2Proof.Safety

/-- A unit that is not faulted with these four cells, every other register zero. -/
def ofCells (a b c d : Cell24) : State := { State.reset with v := #v[a, b, c, d] }

/-- A unit that is not faulted with these lanes, every other register zero. -/
def ofLanes (l : Lanes) : State := { State.reset with t := l }

/-- A unit that is not faulted with this wide register, every other register zero. -/
def ofWide (x : Wide) : State := { State.reset with w := x }

/-- The state after one step that issues the word `w`. -/
def after (w : Nat) (s : State) : State :=
  match step (s.withFetchWord 16 w) with
  | .next t => t
  | _ => s

-- ==== Well-formedness: the checks refuse what is ill formed ====

/-- First check: opcodes `0x03`, `0x2D`, `0xFF` are unassigned (95_test_vectors.md 2.1). -/
theorem test_unassigned_opcodes_refused :
    opcodeAssigned 0x0300 = false ∧ opcodeAssigned 0x2D00 = false ∧ opcodeAssigned 0xFFFF = false := by decide

/-- Second check, one word for each field that must be zero: `rc`, `ra`, `rd`, `rb` (95_test_vectors.md 2.1). -/
theorem test_unused_fields_refused :
    unusedFieldsZero 0x0001 = false ∧ unusedFieldsZero 0x0210 = false ∧ unusedFieldsZero 0x1240 = false ∧
    unusedFieldsZero 0x0104 = false ∧ unusedFieldsZero 0x6058 = false ∧ unusedFieldsZero 0x4085 = false := by decide

/-- Both checks together: each ill-formed word is refused by one of them, a legal word by none. -/
theorem test_word_check :
    wellFormedWord 0x0300 = false ∧ wellFormedWord 0x5344 = false ∧ wellFormedWord 0x61FF = true := by decide

/-- A move that issues an illegal word is refused, a host write is not. -/
theorem test_move_check :
    wellFormedMove (.cmd 0x6019) = false ∧ wellFormedMove (.hostWriteT 1 2 3) = true := by decide

/-- A program with one illegal word is refused. -/
theorem test_program_check : wellFormedProgram [.cmd 0x0000, .cmd 0x6200, .reset] = false := by decide

-- ==== Decoding: one word of every command, bit by bit as op, rd, ra, rb, rc (30_encoding.md R61, R64) ====

theorem test_decode_nop : decode 0b0000000000000000 = some .nop := by decide
theorem test_decode_mov : decode 0b0000000110110000 = some (.mov 2 3) := by decide
theorem test_decode_zero : decode 0b0000001001000000 = some (.zero 1) := by decide
theorem test_decode_unpkle : decode 0b0001000011000000 = some (.unpkle 3) := by decide
theorem test_decode_unpkbe : decode 0b0001000110000000 = some (.unpkbe 2) := by decide
theorem test_decode_pkle : decode 0b0001001000100000 = some (.pkle 2) := by decide
theorem test_decode_pkbe : decode 0b0001001100010000 = some (.pkbe 1) := by decide
theorem test_decode_isneg : decode 0b0001010000110000 = some (.isneg 3) := by decide
theorem test_decode_asi8 : decode 0b0010000000100000 = some (.asi8 2) := by decide
theorem test_decode_asi16 : decode 0b0010000100010000 = some (.asi16 1) := by decide
theorem test_decode_asi32 : decode 0b0010001000110000 = some (.asi32 3) := by decide
theorem test_decode_asi64 : decode 0b0010001100100000 = some (.asi64 2) := by decide
theorem test_decode_asi128 : decode 0b0010010000010000 = some (.asi128 1) := by decide
theorem test_decode_asu8 : decode 0b0010100000110000 = some (.asu8 3) := by decide
theorem test_decode_asu16 : decode 0b0010100100100000 = some (.asu16 2) := by decide
theorem test_decode_asu32 : decode 0b0010101000010000 = some (.asu32 1) := by decide
theorem test_decode_asu64 : decode 0b0010101100110000 = some (.asu64 3) := by decide
theorem test_decode_asu128 : decode 0b0010110000100000 = some (.asu128 2) := by decide
theorem test_decode_fromi8 : decode 0b0011000011000000 = some (.fromi8 3) := by decide
theorem test_decode_fromi16 : decode 0b0011000110000000 = some (.fromi16 2) := by decide
theorem test_decode_fromi32 : decode 0b0011001001000000 = some (.fromi32 1) := by decide
theorem test_decode_fromi64 : decode 0b0011001111000000 = some (.fromi64 3) := by decide
theorem test_decode_fromi128 : decode 0b0011010010000000 = some (.fromi128 2) := by decide
theorem test_decode_fromu8 : decode 0b0011100001000000 = some (.fromu8 1) := by decide
theorem test_decode_fromu16 : decode 0b0011100111000000 = some (.fromu16 3) := by decide
theorem test_decode_fromu32 : decode 0b0011101010000000 = some (.fromu32 2) := by decide
theorem test_decode_fromu64 : decode 0b0011101101000000 = some (.fromu64 1) := by decide
theorem test_decode_fromu128 : decode 0b0011110011000000 = some (.fromu128 3) := by decide
theorem test_decode_fromu24 : decode 0b0011110110000000 = some (.fromu24 2) := by decide
theorem test_decode_add : decode 0b0100000001101100 = some (.add 1 2 3) := by decide
theorem test_decode_sub : decode 0b0100000111011000 = some (.sub 3 1 2) := by decide
theorem test_decode_mul : decode 0b0100001010110100 = some (.mul 2 3 1) := by decide
theorem test_decode_div : decode 0b0100001101101100 = some (.div 1 2 3) := by decide
theorem test_decode_rem : decode 0b0100010011011000 = some (.rem 3 1 2) := by decide
theorem test_decode_neg : decode 0b0100010110110000 = some (.neg 2 3) := by decide
theorem test_decode_and : decode 0b0101000001101100 = some (.and 1 2 3) := by decide
theorem test_decode_or : decode 0b0101000111011000 = some (.or 3 1 2) := by decide
theorem test_decode_xor : decode 0b0101001010110100 = some (.xor 2 3 1) := by decide
theorem test_decode_not : decode 0b0101001101100000 = some (.not 1 2) := by decide
theorem test_decode_shl : decode 0b0101010011011000 = some (.shl 3 1 2) := by decide
theorem test_decode_shr : decode 0b0101010110110100 = some (.shr 2 3 1) := by decide
theorem test_decode_cmp : decode 0b0110000000101100 = some (.cmp 2 3) := by decide
theorem test_decode_clamp : decode 0b0110000111011001 = some (.clamp 3 1 2 1) := by decide
theorem test_decode_asf32 : decode 0b0111000000110000 = some (.asf32 3) := by decide
theorem test_decode_asf64 : decode 0b0111000100100000 = some (.asf64 2) := by decide
theorem test_decode_fromf32 : decode 0b0111100011000000 = some (.fromf32 3) := by decide
theorem test_decode_fromf64 : decode 0b0111100110000000 = some (.fromf64 2) := by decide

/-- Rejection by name (30_encoding.md R65, R66). -/
theorem test_decode_rejects_by_name :
    decodeWord 0x1500 = .illegal .unassignedOpcode ∧ decodeWord 0x1240 = .illegal .mustBeZeroField := by decide

/-- The host's reading of a table word: 16 bits decode, a longer instruction does not exist. -/
theorem test_decode_table_word :
    decodeTableWord 16 0x4084 = some (.add 2 0 1) ∧ decodeTableWord 16 0x4600 = none ∧ decodeTableWord 32 0x4084 = none := by
  decide

-- ==== One step of every command ====

/-- 48_clamp_misc.md R176: `NOP` changes no register. -/
theorem test_nop :
    after 0x0000 (ofWide 7) = { ofWide 7 with program := [.cmd 0x0000], pc := 1 } := by decide

/-- 48_clamp_misc.md R175, example -/
theorem test_mov :
    (after 0x0180 (ofCells ⟨0x56, 0x34, 0x12⟩ zeroCell zeroCell zeroCell)).getV 2 = ⟨0x56, 0x34, 0x12⟩ := by decide

/-- 48_clamp_misc.md R174, example -/
theorem test_zero :
    (after 0x02C0 (ofCells zeroCell zeroCell zeroCell ⟨0x56, 0x34, 0x12⟩)).getV 3 = ⟨0x00, 0x00, 0x00⟩ := by decide

/-- 41_pack_unpack.md R81, example -/
theorem test_unpkle : (after 0x1000 (ofLanes ⟨0x56, 0x34, 0x12⟩)).getV 0 = ⟨0x56, 0x34, 0x12⟩ := by decide

/-- 41_pack_unpack.md R82, example -/
theorem test_unpkbe : (after 0x1140 (ofLanes ⟨0x12, 0x34, 0x56⟩)).getV 1 = ⟨0x56, 0x34, 0x12⟩ := by decide

/-- 41_pack_unpack.md R83, example -/
theorem test_pkle :
    (after 0x1200 (ofCells ⟨0xFF, 0xFF, 0x7F⟩ zeroCell zeroCell zeroCell)).t = ⟨0xFF, 0xFF, 0x7F⟩ := by decide

/-- 41_pack_unpack.md R84, example -/
theorem test_pkbe :
    (after 0x1300 (ofCells ⟨0xFF, 0xFF, 0x7F⟩ zeroCell zeroCell zeroCell)).t = ⟨0x7F, 0xFF, 0xFF⟩ := by decide

/-- 42_sign_widen_narrow.md R91, example -/
theorem test_isneg :
    statusWord (after 0x1420 (ofCells zeroCell zeroCell ⟨0x00, 0x00, 0x80⟩ zeroCell)).status = 0x01 := by decide

/-- 42_sign_widen_narrow.md R93, example -/
theorem test_asi8 : (after 0x2000 (ofCells ⟨0x56, 0x34, 0x12⟩ zeroCell zeroCell zeroCell)).w = 0x56 := by decide

/-- 95_test_vectors.md 2.3, the row on W overwritten whole -/
theorem test_asi8_clears_upper :
    (after 0x2000 { ofCells ⟨0x01, 0x00, 0x00⟩ zeroCell zeroCell zeroCell with w := 0xFFFFFFFFFFFFFFFFFFFFFFFFFFFFFFFF }).w = 0x1 :=
  by decide

/-- 42_sign_widen_narrow.md R94, example -/
theorem test_asi16 :
    (after 0x2100 (ofCells ⟨0x56, 0x34, 0x12⟩ zeroCell zeroCell zeroCell)).w = 0x3456 := by decide

/-- 42_sign_widen_narrow.md R95, example -/
theorem test_asi32 :
    (after 0x2210 (ofCells zeroCell ⟨0x00, 0x00, 0x80⟩ zeroCell zeroCell)).w = 0xFF800000 := by decide

/-- 42_sign_widen_narrow.md R96, example -/
theorem test_asi64 :
    (after 0x2300 (ofCells ⟨0xFF, 0xFF, 0xFF⟩ zeroCell zeroCell zeroCell)).w = 0xFFFFFFFFFFFFFFFF := by decide

/-- 42_sign_widen_narrow.md R97, example -/
theorem test_asi128 :
    (after 0x2430 (ofCells zeroCell zeroCell zeroCell ⟨0xFE, 0xFF, 0xFF⟩)).w = 0xFFFFFFFFFFFFFFFFFFFFFFFFFFFFFFFE :=
  by decide

/-- 42_sign_widen_narrow.md R98, example -/
theorem test_asu8 : (after 0x2800 (ofCells ⟨0xFF, 0xFF, 0xFF⟩ zeroCell zeroCell zeroCell)).w = 0xFF := by decide

/-- 42_sign_widen_narrow.md R99, example -/
theorem test_asu16 :
    (after 0x2900 (ofCells ⟨0x56, 0x34, 0x12⟩ zeroCell zeroCell zeroCell)).w = 0x3456 := by decide

/-- 42_sign_widen_narrow.md R100, example -/
theorem test_asu32 :
    (after 0x2A00 (ofCells ⟨0xFF, 0xFF, 0xFF⟩ zeroCell zeroCell zeroCell)).w = 0xFFFFFF := by decide

/-- 42_sign_widen_narrow.md R101, example -/
theorem test_asu64 :
    (after 0x2B00 (ofCells ⟨0xFF, 0xFF, 0xFF⟩ zeroCell zeroCell zeroCell)).w = 0xFFFFFF := by decide

/-- 42_sign_widen_narrow.md R102, example -/
theorem test_asu128 :
    (after 0x2C20 (ofCells zeroCell zeroCell ⟨0x00, 0x00, 0x80⟩ zeroCell)).w = 0x800000 := by decide

/-- 95_test_vectors.md 2.4, the last row -/
theorem test_fromi8 :
    (after 0x3000 (ofWide 0x123456789ABCDEF0123456789ABCDEF0)).getV 0 = ⟨0xF0, 0xFF, 0xFF⟩ := by decide

/-- 95_test_vectors.md 2.4, the last row -/
theorem test_fromi16 :
    (after 0x3100 (ofWide 0x123456789ABCDEF0123456789ABCDEF0)).getV 0 = ⟨0xF0, 0xDE, 0xFF⟩ := by decide

/-- 43_construct.md R114, example -/
theorem test_fromi32 : (after 0x3200 (ofWide 0x01000000)).getV 0 = ⟨0x00, 0x00, 0x00⟩ := by decide

/-- 95_test_vectors.md 2.4, row 0xFFFFFFFFFF800000 -/
theorem test_fromi64 : (after 0x3300 (ofWide 0xFFFFFFFFFF800000)).getV 0 = ⟨0x00, 0x00, 0x80⟩ := by decide

/-- 95_test_vectors.md 2.4, the last row -/
theorem test_fromi128 :
    (after 0x3400 (ofWide 0x123456789ABCDEF0123456789ABCDEF0)).getV 0 = ⟨0xF0, 0xDE, 0xBC⟩ := by decide

/-- 95_test_vectors.md 2.4, the last row -/
theorem test_fromu8 :
    (after 0x3800 (ofWide 0x123456789ABCDEF0123456789ABCDEF0)).getV 0 = ⟨0xF0, 0x00, 0x00⟩ := by decide

/-- 95_test_vectors.md 2.4, the last row -/
theorem test_fromu16 :
    (after 0x3900 (ofWide 0x123456789ABCDEF0123456789ABCDEF0)).getV 0 = ⟨0xF0, 0xDE, 0x00⟩ := by decide

/-- 95_test_vectors.md 2.4, row 0x100000005 -/
theorem test_fromu32 : (after 0x3A00 (ofWide 0x100000005)).getV 0 = ⟨0x05, 0x00, 0x00⟩ := by decide

/-- 95_test_vectors.md 2.4, row 0xFF7FFFFF -/
theorem test_fromu64 : (after 0x3B00 (ofWide 0xFF7FFFFF)).getV 0 = ⟨0xFF, 0xFF, 0x7F⟩ := by decide

/-- 95_test_vectors.md 2.4, the last row -/
theorem test_fromu128 :
    (after 0x3C00 (ofWide 0x123456789ABCDEF0123456789ABCDEF0)).getV 0 = ⟨0xF0, 0xDE, 0xBC⟩ := by decide

/-- 43_construct.md R123, example -/
theorem test_fromu24 : (after 0x3D00 (ofWide 0x800000)).getV 0 = ⟨0x00, 0x00, 0x80⟩ := by decide

/-- 46_arith.md R146, example -/
theorem test_add_wraps :
    (after 0x4084 (ofCells ⟨0xFF, 0xFF, 0x7F⟩ ⟨0x01, 0x00, 0x00⟩ zeroCell zeroCell)).getV 2 = ⟨0x00, 0x00, 0x80⟩ :=
  by decide

/-- 46_arith.md R147, example -/
theorem test_sub_in_place :
    (after 0x4104 (ofCells ⟨0x00, 0x00, 0x80⟩ ⟨0x01, 0x00, 0x00⟩ zeroCell zeroCell)).getV 0 = ⟨0xFF, 0xFF, 0x7F⟩ :=
  by decide

/-- 46_arith.md R148, example -/
theorem test_mul :
    (after 0x4284 (ofCells ⟨0xE8, 0x03, 0x00⟩ ⟨0x10, 0x27, 0x00⟩ zeroCell zeroCell)).getV 2 = ⟨0x80, 0x96, 0x98⟩ :=
  by decide

/-- 46_arith.md R149, example -/
theorem test_div :
    (after 0x4384 (ofCells ⟨0xF9, 0xFF, 0xFF⟩ ⟨0x02, 0x00, 0x00⟩ zeroCell zeroCell)).getV 2 = ⟨0xFD, 0xFF, 0xFF⟩ :=
  by decide

/-- 46_arith.md R149, 60_exceptions.md R180: FAULT and cause 1 -/
theorem test_div_by_zero :
    statusWord (after 0x4384 (ofCells ⟨0x07, 0x00, 0x00⟩ zeroCell zeroCell zeroCell)).status = 0x30 := by decide

/-- 46_arith.md R150, example -/
theorem test_rem :
    (after 0x4484 (ofCells ⟨0xF9, 0xFF, 0xFF⟩ ⟨0x02, 0x00, 0x00⟩ zeroCell zeroCell)).getV 2 = ⟨0xFF, 0xFF, 0xFF⟩ :=
  by decide

/-- 46_arith.md R150, corner case MIN % (-1) -/
theorem test_rem_min_by_minus_one :
    (after 0x4484 (ofCells ⟨0x00, 0x00, 0x80⟩ ⟨0xFF, 0xFF, 0xFF⟩ ⟨0x56, 0x34, 0x12⟩ zeroCell)).getV 2 = ⟨0x00, 0x00, 0x00⟩ :=
  by decide

/-- 46_arith.md R151, example -/
theorem test_neg_min :
    (after 0x4540 (ofCells ⟨0x00, 0x00, 0x80⟩ zeroCell zeroCell zeroCell)).getV 1 = ⟨0x00, 0x00, 0x80⟩ := by decide

/-- 47_bitwise_shift.md R161, example -/
theorem test_and :
    (after 0x5084 (ofCells ⟨0x56, 0x34, 0x12⟩ ⟨0x0F, 0xF0, 0xFF⟩ zeroCell zeroCell)).getV 2 = ⟨0x06, 0x30, 0x12⟩ :=
  by decide

/-- 47_bitwise_shift.md R162, example -/
theorem test_or :
    (after 0x5184 (ofCells ⟨0x56, 0x34, 0x12⟩ ⟨0x0F, 0xF0, 0xFF⟩ zeroCell zeroCell)).getV 2 = ⟨0x5F, 0xF4, 0xFF⟩ :=
  by decide

/-- 47_bitwise_shift.md R163, example -/
theorem test_xor :
    (after 0x5284 (ofCells ⟨0x56, 0x34, 0x12⟩ ⟨0x0F, 0xF0, 0xFF⟩ zeroCell zeroCell)).getV 2 = ⟨0x59, 0xC4, 0xED⟩ :=
  by decide

/-- 47_bitwise_shift.md R164, example -/
theorem test_not :
    (after 0x5340 (ofCells ⟨0x56, 0x34, 0x12⟩ zeroCell zeroCell zeroCell)).getV 1 = ⟨0xA9, 0xCB, 0xED⟩ := by decide

/-- 47_bitwise_shift.md R166, example -/
theorem test_shl :
    (after 0x5484 (ofCells ⟨0x01, 0x00, 0x00⟩ ⟨0x17, 0x00, 0x00⟩ zeroCell zeroCell)).getV 2 = ⟨0x00, 0x00, 0x80⟩ :=
  by decide

/-- 47_bitwise_shift.md R166, corner case: amount 32 acts as 0 -/
theorem test_shl_by_32_copies :
    (after 0x5484 (ofCells ⟨0x56, 0x34, 0x12⟩ ⟨0x20, 0x00, 0x00⟩ zeroCell zeroCell)).getV 2 = ⟨0x56, 0x34, 0x12⟩ :=
  by decide

/-- 47_bitwise_shift.md R167, example -/
theorem test_shr :
    (after 0x5584 (ofCells ⟨0x00, 0x00, 0x80⟩ ⟨0x04, 0x00, 0x00⟩ zeroCell zeroCell)).getV 2 = ⟨0x00, 0x00, 0xF8⟩ :=
  by decide

/-- 47_bitwise_shift.md R167, corner case: (-7) >> 1 = -4 -/
theorem test_shr_rounds_down :
    (after 0x5584 (ofCells ⟨0xF9, 0xFF, 0xFF⟩ ⟨0x01, 0x00, 0x00⟩ zeroCell zeroCell)).getV 2 = ⟨0xFC, 0xFF, 0xFF⟩ :=
  by decide

/-- 45_compare.md R141, example -/
theorem test_cmp_min_below_255 :
    statusWord (after 0x6010 (ofCells ⟨0xFF, 0x00, 0x00⟩ ⟨0x00, 0x00, 0x80⟩ zeroCell zeroCell)).status = 0x02 :=
  by decide

/-- 45_compare.md R141, example -/
theorem test_cmp_255_above_min :
    statusWord (after 0x6004 (ofCells ⟨0xFF, 0x00, 0x00⟩ ⟨0x00, 0x00, 0x80⟩ zeroCell zeroCell)).status = 0x08 :=
  by decide

/-- 48_clamp_misc.md R171, example -/
theorem test_clamp :
    (after 0x61C6 (ofCells ⟨0x2C, 0x01, 0x00⟩ ⟨0x80, 0xFF, 0xFF⟩ ⟨0x7F, 0x00, 0x00⟩ zeroCell)).getV 3 = ⟨0x7F, 0x00, 0x00⟩ :=
  by decide

/-- 48_clamp_misc.md R171, example: ClampOrder, FAULT and cause 2 -/
theorem test_clamp_order :
    statusWord (after 0x61C9 (ofCells ⟨0x2C, 0x01, 0x00⟩ ⟨0x80, 0xFF, 0xFF⟩ ⟨0x7F, 0x00, 0x00⟩ zeroCell)).status = 0x50 :=
  by decide

/-- 95_test_vectors.md 2.5, value -5 -/
theorem test_asf32 :
    (after 0x7000 (ofCells ⟨0xFB, 0xFF, 0xFF⟩ zeroCell zeroCell zeroCell)).w = 0xC0A00000 := by decide

/-- 44_float.md R132, example -/
theorem test_asf64 :
    (after 0x7100 (ofCells ⟨0xFF, 0x00, 0x00⟩ zeroCell zeroCell zeroCell)).w = 0x406FE00000000000 := by decide

/-- 44_float.md R134: the cell is the low three bytes of the open function, whose value nothing fixes. -/
theorem test_fromf32 :
    ((after 0x7800 (ofWide 0xC0200000)).getV 0).b0 = (Config.f2i32 0xC0200000).extractLsb' 0 8 := rfl

/-- 44_float.md R135: as R134, for 64 bits. -/
theorem test_fromf64 :
    ((after 0x7940 (ofWide 0x4170000000000000)).getV 1).b2 = (Config.f2i64 0x4170000000000000).extractLsb' 16 8 := rfl

/-- The recommended instance of 44_float.md R136 on the examples of R134 and R135; the machine does not use it. -/
theorem test_recommended_float_to_integer :
    f2iRecommended32 0xC0200000 = 0xFFFFFFFE ∧ f2iRecommended64 0x4170000000000000 = 0x01000000 := by decide

-- ==== Faults, the freeze, host moves, text ====

/-- 95_test_vectors.md, fault rows: the illegal word `0x0001` gives `STATUS = 0x70` and is recorded in `FCMD`. -/
theorem test_illegal_word :
    statusWord (after 0x0001 State.reset).status = 0x70 ∧ (after 0x0001 State.reset).fcmd = 0x0001 := by decide

/-- 60_exceptions.md R183: after a fault a legal command changes no cell and not the record. -/
theorem test_freeze :
    (after 0x02C0 (after 0x4384 (ofCells ⟨0x07, 0x00, 0x00⟩ zeroCell zeroCell ⟨0x56, 0x34, 0x12⟩))).getV 3
      = ⟨0x56, 0x34, 0x12⟩ := by decide

/-- 10_state.md R33: `HostWriteT` fills the lanes in order. -/
theorem test_host_write_lanes :
    makeMove (.hostWriteT 0x56 0x34 0x12) State.reset = .next (ofLanes ⟨0x56, 0x34, 0x12⟩) := rfl

/-- 20_memory.md R47: after `ASI32` of `MIN` (42_sign_widen_narrow.md R95, `W = 0xFF800000`) lanes 2, 3, 4 of `W` read
`0x80`, `0xFF`, `0x00`. -/
theorem test_host_reads_lanes_of_w :
    hostRead (.wLane 2) (after 0x2210 (ofCells zeroCell minCell zeroCell zeroCell)) = 0x80 ∧
    hostRead (.wLane 3) (after 0x2210 (ofCells zeroCell minCell zeroCell zeroCell)) = 0xFF ∧
    hostRead (.wLane 4) (after 0x2210 (ofCells zeroCell minCell zeroCell zeroCell)) = 0x00 := by decide

/-- 48_clamp_misc.md R173: DOC0's two examples and the longest output. -/
theorem test_decimal_text :
    dec maxCell = "8388607" ∧ dec ⟨0xFF, 0xFF, 0xFF⟩ = "-1" ∧ dec minCell = "-8388608" := by decide

/-- 30_encoding.md R67: the example `UNPKBE V0` is `0x1100`. -/
theorem test_assembler_line :
    assembleLine ['U', 'N', 'P', 'K', 'B', 'E', ' ', 'V', '0'] = some [.cmd 0x1100] := by decide

-- ==== Witnesses: for each statement with hypotheses, a state and operands that meet them ====

/-- The unit of the witnesses: `V0 = MIN`, `V1 = -1`, `V2 = 23`, `V3 = 7`; not faulted. -/
def demo : State := ofCells minCell ⟨0xFF, 0xFF, 0xFF⟩ ⟨0x17, 0x00, 0x00⟩ ⟨0x07, 0x00, 0x00⟩

/-- The unit `demo` before the one move `m`. -/
def before (m : HostMove) : State := { demo with program := [m], pc := 0 }

/-- The unit after the fault of `DIV V2, V3, V0` with a zero divisor, before the one move `m`. -/
def frozen (m : HostMove) : State :=
  { (after 0x43B0 (ofCells zeroCell zeroCell zeroCell zeroCell)) with program := [m], pc := 0 }

theorem witness_DecodeEncodeAgree :
    decode 0x4084 = some (.add 2 0 1) ∧ unusedFieldsZero 0x0001 = false := by decide

theorem witness_StepRunsDecodedCommand :
    (before (.cmd 0x4084)).program[(before (.cmd 0x4084)).pc]? = some (.cmd 0x4084) ∧
    decode 0x4084 = some (.add 2 0 1) := by decide

theorem witness_IllegalWordRaisesIllegalCommand :
    (before (.cmd 0x0300)).program[(before (.cmd 0x0300)).pc]? = some (.cmd 0x0300) ∧
    (before (.cmd 0x0300)).status.fault = false ∧ wellFormedWord 0x0300 = false := by decide

/-- `CLAMP V0, V0, V2, V1` with min 23 and max -1. -/
theorem witness_FaultEntryIsPrecise :
    (before (.cmd 0x6109)).program[(before (.cmd 0x6109)).pc]? = some (.cmd 0x6109) ∧
    (before (.cmd 0x6109)).status.fault = false ∧
    ∃ t, step (before (.cmd 0x6109)) = .next t ∧ t.status.fault = true := ⟨rfl, rfl, _, rfl, by decide⟩

theorem witness_FaultedUnitIgnoresMoves :
    (frozen (.hostWriteW 9)).program[(frozen (.hostWriteW 9)).pc]? = some (.hostWriteW 9) ∧
    HostMove.hostWriteW 9 ≠ .reset ∧ (frozen (.hostWriteW 9)).status.fault = true := by decide

/-- Both clauses: the move is reset, and the move is another one. -/
theorem witness_OnlyResetLeavesTheFaultedState :
    ((frozen .reset).status.fault = true ∧ (∃ t, step (frozen .reset) = .next t ∧ t.status.fault = false) ∧
      (frozen .reset).program[(frozen .reset).pc]? = some .reset) ∧
    ((frozen (.cmd 0)).status.fault = true ∧ (∃ t, step (frozen (.cmd 0)) = .next t) ∧
      (frozen (.cmd 0)).program[(frozen (.cmd 0)).pc]? ≠ some .reset) :=
  ⟨⟨by decide, ⟨_, rfl, by decide⟩, by decide⟩, by decide, ⟨_, rfl⟩, by decide⟩

theorem witness_HostWritesReachLanesAndWide :
    ((before (.hostWriteT 1 2 3)).program[(before (.hostWriteT 1 2 3)).pc]? = some (.hostWriteT 1 2 3) ∧
      (before (.hostWriteT 1 2 3)).status.fault = false) ∧
    ((before (.hostWriteW 5)).program[(before (.hostWriteW 5)).pc]? = some (.hostWriteW 5) ∧
      (before (.hostWriteW 5)).status.fault = false) := by decide

theorem witness_ResetMoveClearsTheUnit : (frozen .reset).program[(frozen .reset).pc]? = some .reset := by decide

/-- A step that faults, from a state that meets the invariant. -/
theorem witness_EveryStepKeepsUnitInv :
    UnitInv (before (.cmd 0x6109)) ∧ ∃ t, step (before (.cmd 0x6109)) = .next t :=
  ⟨⟨by decide, rfl, by unfold OrderFlagsExclusive; decide⟩, _, rfl⟩

theorem witness_EveryMoveCompletes : (before .reset).pc < (before .reset).program.length := by decide

/-- No move is left; a run from a unit that is not faulted that ends in a fault; a run without a reset that ends well. -/
theorem witness_RunsOfFiniteProgramsEnd :
    demo.pc ≤ demo.program.length ∧
    ((before (.cmd 0x6109)).pc ≤ (before (.cmd 0x6109)).program.length ∧ (before (.cmd 0x6109)).status.fault = false ∧
      ∃ t, Sys2Proof.core.run 1 (before (.cmd 0x6109)) = .next t ∧ EndedInFault t) ∧
    ((∀ j : Nat, (before (.cmd 0)).program[j]? ≠ some HostMove.reset) ∧
      ∃ t, Sys2Proof.core.run 1 (before (.cmd 0)) = .next t ∧ EndedWell t) :=
  ⟨by decide, ⟨by decide, rfl, _, rfl, by unfold EndedInFault RunEnded; decide⟩,
    fun j => by cases j <;> simp [before], _, rfl, by unfold EndedWell RunEnded; decide⟩

theorem witness_EndedRunIsRefusedByName : RunEnded demo := by unfold RunEnded; decide

/-- Neither `ISNEG` nor `CMP`. -/
theorem witness_FlagsWrittenOnlyByIsnegAndCmp :
    (∃ t, exec (.add 2 0 1) demo = .next t) ∧ (∀ ra, Instr.add 2 0 1 ≠ .isneg ra) ∧
    (∀ ra rb, Instr.add 2 0 1 ≠ .cmp ra rb) := ⟨⟨_, rfl⟩, by simp, by simp⟩

theorem witness_CellsWrittenOnlyAtDestination :
    (∃ t, exec (.add 2 0 1) demo = .next t) ∧ destination (.add 2 0 1) ≠ some 3 := ⟨⟨_, rfl⟩, by decide⟩

theorem witness_LanesAndWideHaveFewWriters :
    (∃ t, exec (.add 2 0 1) demo = .next t) ∧ (∀ ra, Instr.add 2 0 1 ≠ .pkle ra ∧ Instr.add 2 0 1 ≠ .pkbe ra) ∧
    writesW (.add 2 0 1) = false := ⟨⟨_, rfl⟩, by simp, rfl⟩

/-- A command that faults and one that does not. -/
theorem witness_OnlyDivRemClampFault :
    demo.status.fault = false ∧ (∃ t, exec (.clamp 0 0 2 1) demo = .next t ∧ t.status.fault = true) ∧
    (∃ t, exec .nop demo = .next t ∧ t.status.fault = false) := ⟨rfl, ⟨_, rfl, by decide⟩, _, rfl, rfl⟩

/-- The last range inside the lanes, the empty one at the end, and the first one that leaves them. -/
theorem witness_LaneAccessPrimitives :
    1 + 2 ≤ 3 ∧ 3 + 0 ≤ 3 ∧ 3 < 2 + 2 ∧ memRead ⟨1, 2, 3⟩ 1 2 = some [2, 3] ∧ memRead ⟨1, 2, 3⟩ 2 2 = none := by decide

/-- The only hypothesis of UnpackTakesTheLanes, PackFillsTheLanes, PackUnpackLaws, IsnegTestsTheSign,
NarrowingKeepsLowBytes, SignedWideningKeepsTheValue, UnsignedWideningKeepsTheBits, ByteLanesOfWidenedResults,
HostReadsSingleLanes, WideningLaws, ConstructionFromNarrowTypes, ConstructionFromWideTypes, ConstructionLaws, IntegerToFloatIsExact,
FloatToCellTakesLowBytes, CmpWritesTheSignedOrder, ComparisonOperatorsFromFlags, AddSubMulWrap, NegWraps,
BitwiseCommandsActBytewise, ShiftsMaskTheAmount and ZeroMovNop: a unit that is not faulted. -/
theorem witness_unit_not_faulted : demo.status.fault = false := rfl

/-- `W` and another value that agree in the low 8 bits only. -/
theorem witness_ConstructionIgnoresUpperW :
    demo.status.fault = false ∧ (Instr.fromi8 1, 8) ∈ readsLowW 1 ∧
    demo.w.extractLsb' 0 8 = (0xFF00 : Wide).extractLsb' 0 8 ∧ demo.w ≠ 0xFF00 := by decide

/-- The zero value; and `MIN` and 7 with their exponents 23 and 2. -/
theorem witness_IntegerToFloatBits :
    s24 (State.reset.getV 0) = 0 ∧
    (2 ^ 23 ≤ (s24 (demo.getV 0)).natAbs ∧ (s24 (demo.getV 0)).natAbs < 2 ^ (23 + 1)) ∧
    (2 ^ 2 ≤ (s24 (demo.getV 3)).natAbs ∧ (s24 (demo.getV 3)).natAbs < 2 ^ (2 + 1)) := by decide

/-- The conversion that rounds the float's value down meets the premise at every pattern, for both widths. -/
theorem witness_FloatRoundTripForEveryConversion :
    demo.status.fault = false ∧
    (∃ f : BitVec 32 → BitVec 32, ∀ (x : BitVec 32) (z : Int), f32Value x = z → -2 ^ 31 ≤ z → z < 2 ^ 31 →
      f x = BitVec.ofInt 32 z) ∧
    (∃ g : BitVec 64 → BitVec 32, ∀ (x : BitVec 64) (z : Int), f64Value x = z → -2 ^ 31 ≤ z → z < 2 ^ 31 →
      g x = BitVec.ofInt 32 z) :=
  ⟨rfl, ⟨fun x => BitVec.ofInt 32 ⌊f32Value x⌋, fun x z h _ _ => by simp [h]⟩,
    ⟨fun x => BitVec.ofInt 32 ⌊f64Value x⌋, fun x z h _ _ => by simp [h]⟩⟩

/-- The two clauses on the least and the greatest cell. -/
theorem witness_SignedOrderByInvertedSignBit :
    demo.status.fault = false ∧ demo.getV 0 = minCell ∧ (ofCells maxCell minCell zeroCell zeroCell).getV 0 = maxCell := by
  decide

/-- A zero divisor and one that is not zero. -/
theorem witness_DivRemTruncateOrFault :
    State.reset.getV 1 = ⟨0x00, 0x00, 0x00⟩ ∧ demo.getV 1 ≠ ⟨0x00, 0x00, 0x00⟩ ∧ demo.status.fault = false := by decide

/-- `MIN / -1`, and `MIN / 7` beside it. -/
theorem witness_DivisionIdentity :
    demo.status.fault = false ∧ s24 (demo.getV 1) ≠ 0 ∧
    (s24 (demo.getV 0) = -8388608 ∧ s24 (demo.getV 1) = -1) ∧
    (s24 (demo.getV 3) ≠ 0 ∧ ¬(s24 (demo.getV 0) = -8388608 ∧ s24 (demo.getV 3) = -1)) := by decide

theorem witness_RingOperationsOnRawBits : demo.status.fault = false ∧ (2 : VIdx) ≠ 0 := by decide

/-- The first clause at its bound `n = 31`, where the cell of `2^n` is zero. -/
theorem witness_ShiftLaws_left :
    s24 ((ofCells minCell ⟨0x1F, 0x00, 0x00⟩ zeroCell zeroCell).getV 1) = (31 : Nat) ∧
    (ofCells minCell ⟨0x1F, 0x00, 0x00⟩ zeroCell zeroCell).getV 2 = wrap24 (2 ^ 31) := by decide

/-- The second clause at its bound `n = 23`: `V0 = MIN` is the cell of `-2^23`. -/
theorem witness_ShiftLaws_right :
    demo.status.fault = false ∧ s24 (demo.getV 2) = (23 : Nat) ∧ (1 : VIdx) ≠ 2 ∧ demo.getV 0 = wrap24 (-2 ^ 23) := by
  decide

/-- min > max (23, -1); and min = max (7, 7). -/
theorem witness_ClampSelectsOrFaults :
    demo.status.fault = false ∧ s24 (demo.getV 2) > s24 (demo.getV 1) ∧ s24 (demo.getV 3) ≤ s24 (demo.getV 3) := by
  decide

theorem witness_ClampLaws :
    demo.status.fault = false ∧ s24 (demo.getV 1) ≤ s24 (demo.getV 2) ∧ (0 : VIdx) ≠ 1 ∧ (0 : VIdx) ≠ 2 := by decide

/-- An in-place division that faults, and an in-place addition that does not. -/
theorem witness_InPlaceFormsComputeTheSame :
    State.reset.status.fault = false ∧
    (∃ t, exec (expandPseudo (.divIp 0 1)) State.reset = .next t ∧ t.status.fault = true) ∧
    (∃ t, exec (expandPseudo (.addIp 0 1)) State.reset = .next t ∧ t.status.fault = false) :=
  ⟨rfl, ⟨_, rfl, by decide⟩, _, rfl, rfl⟩

/-- The digits of the text of `MIN` after its minus sign, and the text whose first digit is zero. -/
theorem witness_DecimalTextIsInjective :
    decChars minCell = '-' :: ['8', '3', '8', '8', '6', '0', '8'] ∧ (decChars zeroCell).head? = some '0' := by decide

/-- A host move with a line, and a command whose word is legal. -/
theorem witness_AssemblerReadsItsOwnLines :
    asmMove .reset = some ['R', 'E', 'S', 'E', 'T'] ∧ wellFormedMove (.cmd 0x4084) = true := by decide

end Sys2Proof.Tests
end

section
/-! PROOFS. What a step does with a command word (00_scope.md R11, 10_state.md R28, 30_encoding.md R66). -/

namespace Sys2Proof.Machine
open Sys2Proof

/-- `decode` forgets only why a word is illegal. -/
theorem decode_eq_some_iff {w : CmdWord} {i : Instr} : decode w = some i ↔ decodeWord w = .command i := by
  cases hd : decodeWord w <;> simp [decode, hd]

/-- Handing the unit a legal word is executing its command. The frozen unit ignores the word (60_exceptions.md R183)
and so does `exec`, so this needs no premise on `FAULT`. -/
theorem makeMove_cmd_of_decode {w : CmdWord} {i : Instr} (hd : decode w = some i) (s : State) :
    makeMove (.cmd w) s = exec i s := by
  have hw : decodeWord w = .command i := decode_eq_some_iff.mp hd
  cases hf : s.status.fault with
  | true => simp [makeMove, issueWord, hf, exec_faulted i hf]
  | false => simp [makeMove, issueWord, hf, hw]

/-- The step of a state whose move at `pc` answers `u`, with the position counted from before the move: no move
touches it (`makeMove_keeps_host`). -/
theorem step_of_move_pc {s u : State} {m : HostMove} (hm : s.program[s.pc]? = some m)
    (hu : makeMove m s = .next u) : step s = .next { u with pc := s.pc + 1 } := by
  obtain ⟨_, hpc⟩ := makeMove_keeps_host hu
  rw [step_of_move hm hu, hpc]

/-- Settles O5: the move of a legal word is `exec` of its command, `exec` always answers, and no move touches `pc`. -/
theorem stepRunsDecodedCommand : Obligations.StepRunsDecodedCommand := by
  intro s w i hm hd
  obtain ⟨t, ht⟩ := exec_answers i s
  have hmove : makeMove (.cmd w) s = .next t := (makeMove_cmd_of_decode hd s).trans ht
  exact ⟨t, ht, step_of_move_pc hm hmove⟩

end Sys2Proof.Machine
end

section
/-! PROOFS. What every command keeps: the flags, the cells, the lanes and `W` (10_state.md R23 to R26, R30). Each frame
is read off the one list of effects. -/

namespace Sys2Proof.Machine
open Sys2Proof

/-- Whatever a command answers is one of the listed effects, on a faulted unit too: the ignored command keeps the
state (60_exceptions.md R183). -/
theorem effect_of_exec {i : Instr} {s t : State} (h : exec i s = .next t) : Effect i s t := by
  rcases exec_next h with ⟨_, rfl⟩ | ⟨_, he⟩
  · exact .same
  · exact he

/-- Only `ISNEG` reaches `NEG`. -/
theorem effect_keeps_neg {i : Instr} {s t : State} (he : Effect i s t) (hi : ∀ ra, i ≠ .isneg ra) :
    t.status.neg = s.status.neg := by
  cases he with
  | neg ra _ h => exact absurd h (hi ra)
  | _ => rfl

/-- Only `CMP` reaches the order flags. -/
theorem effect_keeps_order {i : Instr} {s t : State} (he : Effect i s t) (hi : ∀ ra rb, i ≠ .cmp ra rb) :
    t.status.lt = s.status.lt ∧ t.status.eq = s.status.eq ∧ t.status.gt = s.status.gt := by
  cases he with
  | order ra rb h => exact absurd h (hi ra rb)
  | _ => exact ⟨rfl, rfl, rfl⟩

/-- Only the destination cell is reached. -/
theorem effect_keeps_cell {i : Instr} {s t : State} (he : Effect i s t) {j : VIdx}
    (hj : Safety.destination i ≠ some j) : t.getV j = s.getV j := by
  cases he with
  | cell rd c h =>
    have hne : j ≠ rd := fun e => hj (e ▸ h)
    exact State.getV_setV_other s c hne
  | _ => rfl

/-- Only `PKLE` and `PKBE` reach the lanes. -/
theorem effect_keeps_lanes {i : Instr} {s t : State} (he : Effect i s t)
    (hi : ∀ ra, i ≠ .pkle ra ∧ i ≠ .pkbe ra) : t.t = s.t := by
  cases he with
  | lanes ra _ h => exact (h.elim (hi ra).1 (hi ra).2).elim
  | _ => rfl

/-- Only the `AS*` commands reach `W`. -/
theorem effect_keeps_wide {i : Instr} {s t : State} (he : Effect i s t) (hi : Safety.writesW i = false) :
    t.w = s.w := by
  cases he with
  | wide _ h => exact (Bool.eq_false_iff.mp hi h).elim
  | _ => rfl

/-- Settles O18: among the effects only those of `ISNEG` and `CMP` hold a flag write. -/
theorem flagsWrittenOnlyByIsnegAndCmp : Obligations.FlagsWrittenOnlyByIsnegAndCmp := fun _ _ _ h =>
  ⟨effect_keeps_neg (effect_of_exec h), effect_keeps_order (effect_of_exec h)⟩

/-- Settles O19: the one cell write among the effects is at the command's destination. -/
theorem cellsWrittenOnlyAtDestination : Obligations.CellsWrittenOnlyAtDestination := fun _ _ _ h _ =>
  effect_keeps_cell (effect_of_exec h)

/-- Settles O20: the effects that write the lanes or `W` name their commands. -/
theorem lanesAndWideHaveFewWriters : Obligations.LanesAndWideHaveFewWriters := fun _ _ _ h =>
  ⟨fun hi k => congrArg (·.lane k) (effect_keeps_lanes (effect_of_exec h) hi),
    effect_keeps_wide (effect_of_exec h)⟩

end Sys2Proof.Machine
end

section
/-! PROOFS. The readers of `W` see its low bits only (10_state.md R26, 43_construct.md R110, 44_float.md R130). -/

namespace Sys2Proof.Machine
open Sys2Proof

/-- Each of the thirteen readers of `W` writes into its destination a function of the low bits it reads. -/
theorem exec_readsLowW (rd : VIdx) :
    ∀ p ∈ Safety.readsLowW rd, ∃ f : BitVec p.2 → Cell24, ∀ s : State, s.status.fault = false →
      exec p.1 s = .next (s.setV rd (f (lowW p.2 s.w))) := by
  simp only [Safety.readsLowW, List.forall_mem_cons]
  exact ⟨⟨_, fun _ => exec_fromi8 rd⟩, ⟨_, fun _ => exec_fromi16 rd⟩, ⟨_, fun _ => exec_fromi32 rd⟩,
    ⟨_, fun _ => exec_fromi64 rd⟩, ⟨_, fun _ => exec_fromi128 rd⟩, ⟨_, fun _ => exec_fromu8 rd⟩,
    ⟨_, fun _ => exec_fromu16 rd⟩, ⟨_, fun _ => exec_fromu32 rd⟩, ⟨_, fun _ => exec_fromu64 rd⟩,
    ⟨_, fun _ => exec_fromu128 rd⟩, ⟨_, fun _ => exec_fromu24 rd⟩, ⟨_, fun _ => exec_fromf32 rd⟩,
    ⟨_, fun _ => exec_fromf64 rd⟩, List.forall_mem_nil _⟩

/-- Settles O37: both runs write the same function of the same low bits. -/
theorem constructionIgnoresUpperW : Obligations.ConstructionIgnoresUpperW := by
  intro s x rd hf p hp hlow
  obtain ⟨f, hexec⟩ := exec_readsLowW rd p hp
  refine ⟨_, _, hexec s hf, hexec { s with w := x } hf, ?_⟩
  rw [State.getV_setV_same, State.getV_setV_same]
  exact congrArg f hlow

end Sys2Proof.Machine
end

section
/-! PROOFS. The host's own moves, the reset values and the `STATUS` word (10_state.md R28, R29, R32, R33). -/

namespace Sys2Proof.Machine
open Sys2Proof

/-- The host's write of the lanes reaches a unit that is not faulted. -/
theorem makeMove_hostWriteT_ready {s : State} (y0 y1 y2 : Byte) (hf : s.status.fault = false) :
    makeMove (.hostWriteT y0 y1 y2) s = .next (s.setT ⟨y0, y1, y2⟩) := by
  simp [makeMove, hostWrite, hf]

/-- The host's write of `W` reaches a unit that is not faulted. -/
theorem makeMove_hostWriteW_ready {s : State} (x : Wide) (hf : s.status.fault = false) :
    makeMove (.hostWriteW x) s = .next (s.setW x) := by
  simp [makeMove, hostWrite, hf]

/-- Settles O10: the two writes reach the unit, and the frames of `setT` and `setW` say what stands. -/
theorem hostWritesReachLanesAndWide : Obligations.HostWritesReachLanesAndWide := by
  constructor
  · intro s y0 y1 y2 hm hf
    obtain ⟨hcells, hw, hstatus, hfcmd, hprogram, _⟩ := onlyLanes_setT s ⟨y0, y1, y2⟩
    exact ⟨_, step_of_move_pc hm (makeMove_hostWriteT_ready y0 y1 y2 hf), rfl, rfl, rfl,
      hcells, hw, hstatus, hfcmd, hprogram, rfl⟩
  · intro s x hm hf
    obtain ⟨hcells, hlanes, hstatus, hfcmd, hprogram, _⟩ := onlyWide_setW s x
    exact ⟨_, step_of_move_pc hm (makeMove_hostWriteW_ready x hf), rfl,
      hcells, hlanes, hstatus, hfcmd, hprogram, rfl⟩

/-- Settles O15: a move that is left answers, and no move touches the host's program and position. -/
theorem everyMoveCompletes : Obligations.EveryMoveCompletes := by
  intro s hpc
  have hm : s.program[s.pc]? = some s.program[s.pc] := List.getElem?_eq_getElem hpc
  obtain ⟨u, hu⟩ := makeMove_answers s.program[s.pc] s
  obtain ⟨hprogram, _⟩ := makeMove_keeps_host hu
  exact ⟨_, step_of_move_pc hm hu, rfl, hprogram⟩

/-- Every lane is zero at reset. -/
@[simp] theorem Lanes.lane_reset (k : Fin 3) : State.reset.t.lane k = 0 := by
  match k with
  | 0 => rfl
  | 1 => rfl
  | 2 => rfl

/-- Settles O12: cells and lanes by their own lemmas, the rest as `State.reset` lists them. -/
theorem resetValues : Obligations.ResetValues :=
  ⟨State.getV_reset, Lanes.lane_reset, rfl, rfl, rfl, rfl⟩

/-- Bits 6:5 of the `STATUS` word are the code of the cause (10_state.md R29). -/
theorem statusWord_cause (t : Status) : (statusWord t).extractLsb' 5 2 = causeCode t.cause := by
  apply BitVec.eq_of_getLsbD_eq
  intro k hk
  simp only [statusWord, BitVec.getLsbD_extractLsb', BitVec.getLsbD_append]
  simp [hk]

/-- Settles O22: each flag is one bit of the concatenation, and bits 6:5 are the cause's code. -/
theorem statusWordLayout : Obligations.StatusWordLayout := by
  intro t
  refine ⟨?neg, ?lt, ?eq, ?gt, ?fault, ?cause, ?top⟩
  case cause => rw [statusWord_cause]; cases t.cause <;> rfl
  all_goals
    simp only [statusWord, BitVec.getLsbD_append]
    simp

end Sys2Proof.Machine
end

section
/-! PROOFS. The invariant of the unit: it holds at reset, every host move keeps it, so every step does (10_state.md R29,
R31; 60_exceptions.md R180, R182, R183). -/

namespace Sys2Proof.Machine
open Sys2Proof Sys2Proof.Safety

/-- A unit without a fault meets the invariant when its record is empty and its order flags are exclusive. -/
theorem unitInv_of_ready {s : State} (hf : s.status.fault = false) (hc : s.status.cause = .none)
    (hw : s.fcmd = 0) (horder : OrderFlagsExclusive s) : UnitInv s :=
  ⟨by simp [hf, hc], by simpa [FaultExplained, hc] using hw, horder⟩

/-- On a unit without a fault the invariant says that the record is empty and the order flags exclusive. -/
theorem ready_of_unitInv {s : State} (hf : s.status.fault = false) (hs : UnitInv s) :
    s.status.cause = .none ∧ s.fcmd = 0 ∧ OrderFlagsExclusive s := by
  obtain ⟨hfault, hrecord, horder⟩ := hs
  have hc : s.status.cause = .none := by simpa [hf] using hfault
  exact ⟨hc, by simpa [FaultExplained, hc] using hrecord, horder⟩

/-- A record that describes its fault meets the invariant, whatever `STATUS` and `FCMD` were before but the order
flags. -/
theorem unitInv_enterFault {s : State} {k : Cause} {w : CmdWord} (horder : OrderFlagsExclusive s)
    (hk : k ≠ .none) (hrecord : FaultExplained (s.enterFault k w)) : UnitInv (s.enterFault k w) :=
  ⟨by simpa using hk, hrecord, horder⟩

/-- The order flags of two cells exclude one another: they are the three cases of the signed order
(45_compare.md R140, R141). -/
theorem orderFlagsExclusive_setOrder (s : State) (a b : Cell24) :
    OrderFlagsExclusive (s.setOrder (cellLt a b) (a32 a == a32 b) (cellLt b a)) := by
  have heq : (a32 a == a32 b) = true → s24 a = s24 b := fun h => by
    rw [← a32_toInt a, ← a32_toInt b, eq_of_beq h]
  simp only [OrderFlagsExclusive, State.setOrder_status, cellLt_iff]
  refine ⟨fun ⟨hlt, he⟩ => ?_, fun ⟨hlt, hgt⟩ => ?_, fun ⟨he, hgt⟩ => ?_⟩
  · exact hlt.ne (heq he)
  · exact hlt.asymm hgt
  · exact hgt.ne' (heq he)

/-- Every effect of a command keeps the invariant: a write leaves the empty record alone, `CMP` writes flags that exclude
one another, and a fault records its own command with the operands still in the cells. -/
theorem effect_keeps_unitInv {i : Instr} {s t : State} (hf : s.status.fault = false) (hs : UnitInv s)
    (he : Effect i s t) : UnitInv t := by
  obtain ⟨hc, hw, horder⟩ := ready_of_unitInv hf hs
  cases he with
  | same => exact hs
  | cell | wide | lanes | neg => exact unitInv_of_ready hf hc hw horder
  | order ra rb => exact unitInv_of_ready hf hc hw (orderFlagsExclusive_setOrder s _ _)
  | divideByZero rd ra rb hi hz =>
    have hword := hi.imp (congrArg encode) (congrArg encode)
    exact unitInv_enterFault horder (by decide) ⟨rd, ra, rb, hword, hz⟩
  | clampOrder rd ra rb rc hi hlt =>
    exact unitInv_enterFault horder (by decide)
      ⟨rd, ra, rb, rc, congrArg encode hi, (cellLt_iff _ _).mp hlt⟩

/-- A unit with the reset values meets the invariant, whatever the host's program and position. -/
theorem unitInv_resetUnit (s : State) : UnitInv s.resetUnit :=
  unitInv_of_ready rfl rfl rfl (by simp [OrderFlagsExclusive, State.reset])

/-- Every host move keeps the invariant. -/
theorem makeMove_keeps_unitInv {m : HostMove} {s t : State} (hs : UnitInv s) (h : makeMove m s = .next t) :
    UnitInv t := by
  rcases makeMove_next h with ⟨_, _, rfl⟩ | ⟨_, rfl⟩ | ⟨hf, hmove⟩
  · exact hs
  · exact unitInv_resetUnit s
  · obtain ⟨hc, hw, horder⟩ := ready_of_unitInv hf hs
    rcases hmove with ⟨_, _, _, _, rfl⟩ | ⟨_, _, rfl⟩ | ⟨w, _, hd, rfl⟩ | ⟨_, i, _, _, hexec⟩
    · exact unitInv_of_ready hf hc hw horder
    · exact unitInv_of_ready hf hc hw horder
    · exact unitInv_enterFault horder (by decide) hd
    · exact effect_keeps_unitInv hf hs (effect_of_exec hexec)

/-- The invariant is about the unit only: the host's position does not matter. -/
theorem unitInv_with_pc {s : State} (n : Nat) (hs : UnitInv s) : UnitInv { s with pc := n } := hs

/-- Settles O13: the reset state is a reset unit. -/
theorem resetMeetsUnitInv : Obligations.ResetMeetsUnitInv := unitInv_resetUnit State.reset

/-- Settles O14: a step is a host move, which keeps the invariant, and then `pc + 1`. -/
theorem everyStepKeepsUnitInv : Obligations.EveryStepKeepsUnitInv := by
  intro s t hs hstep
  obtain ⟨m, u, _, hmove, rfl⟩ := step_next hstep
  exact unitInv_with_pc (u.pc + 1) (makeMove_keeps_unitInv hs hmove)

end Sys2Proof.Machine
end

section
/-! PROOFS. The byte-lane primitives on every range of lanes (00_scope.md R8, 20_memory.md R41). -/

namespace Sys2Proof.Machine
open Sys2Proof

/-- The lanes listed in increasing order hold lane `k` at place `k`. -/
theorem Lanes.getElem?_eq_lane (t : Lanes) (k : Fin 3) : [t.t0, t.t1, t.t2][k.val]? = some (t.lane k) := by
  match k with
  | 0 => rfl
  | 1 => rfl
  | 2 => rfl

/-- An access that leaves the three lanes reads nothing. -/
theorem memRead_outside (t : Lanes) {addr n : Nat} (h : 3 < addr + n) : memRead t addr n = none :=
  if_neg (by omega)

/-- An access that leaves the three lanes writes nothing. -/
theorem memWrite_outside (t : Lanes) {addr n : Nat} (ys : List Byte) (h : 3 < addr + n) :
    memWrite t addr n ys = none :=
  if_neg (by omega)

/-- An access inside the lanes reads `n` bytes, byte `j` from lane `addr + j`. -/
theorem memRead_inside (t : Lanes) {addr n : Nat} (h : addr + n ≤ 3) :
    ∃ ys, memRead t addr n = some ys ∧ ys.length = n ∧
      ∀ (j : Nat) (k : Fin 3), j < n → k.val = addr + j → ys[j]? = some (t.lane k) := by
  refine ⟨_, if_pos h, ?_, fun j k hj hk => ?_⟩
  · simp only [List.length_take, List.length_drop, List.length_cons, List.length_nil]
    omega
  · rw [List.getElem?_take_of_lt hj, List.getElem?_drop, ← hk, t.getElem?_eq_lane k]

/-- A lane in the written range holds the byte at its place in the list. -/
theorem laneAfter_written (ys : List Byte) (addr : Nat) {j : Nat} (old : Byte) (hj : j < ys.length) :
    ys[j]? = some (laneAfter addr ys (addr + j) old) := by
  simp [laneAfter, hj]

/-- A lane before or after the written range keeps its byte. -/
theorem laneAfter_outside (ys : List Byte) {addr k : Nat} (old : Byte) (hk : k < addr ∨ addr + ys.length ≤ k) :
    laneAfter addr ys k old = old := by
  rcases hk with hlt | hge
  · exact if_neg (by omega)
  · have hnone : ys[k - addr]? = none := List.getElem?_eq_none (by omega)
    simp [laneAfter, hnone]

/-- An access inside the lanes writes each lane by the one rule `laneAfter`. -/
theorem memWrite_inside (t : Lanes) {addr n : Nat} {ys : List Byte} (h : addr + n ≤ 3) (hys : ys.length = n) :
    ∃ u, memWrite t addr n ys = some u ∧ ∀ k : Fin 3, u.lane k = laneAfter addr ys k.val (t.lane k) := by
  refine ⟨_, if_pos ⟨h, hys⟩, fun k => ?_⟩
  match k with
  | 0 => rfl
  | 1 => rfl
  | 2 => rfl

/-- Settles O23: a read takes the listed lanes from `addr` on, a write changes the lanes of its range only, and beyond the
lanes both tests fail. -/
theorem laneAccessPrimitives : Obligations.LaneAccessPrimitives := by
  intro t addr n
  refine ⟨fun h => ⟨memRead_inside t h, fun ys hys => ?_⟩,
    fun h => ⟨memRead_outside t h, fun ys => memWrite_outside t ys h⟩⟩
  obtain ⟨u, hu, hlane⟩ := memWrite_inside t h hys
  refine ⟨u, hu, fun j k hj hk => ?_, fun k hk => ?_⟩
  · rw [hlane, hk]
    exact laneAfter_written ys addr _ (hys ▸ hj)
  · rw [hlane]
    exact laneAfter_outside ys _ (hys ▸ hk)

end Sys2Proof.Machine
end

section
/-! PROOFS. The byte lanes of `W` after a widening or narrowing, and the host's reads of single lanes (20_memory.md R43,
R44, R46, R47; 42_sign_widen_narrow.md R90, R92). -/

namespace Sys2Proof.Machine
open Sys2Proof

/-- Byte `k` of a number cut to its low `m` bytes: the number's own byte inside the cut, zero above it. -/
theorem mod_pow_div_pow_mod (x m k : Nat) :
    x % 256 ^ m / 256 ^ k % 256 = if k < m then x / 256 ^ k % 256 else 0 := by
  split
  · next hk =>
    obtain ⟨d, rfl⟩ := Nat.exists_eq_add_of_lt hk
    rw [Nat.add_assoc, pow_add, Nat.mod_mul_right_div_self, pow_succ,
      Nat.mod_mod_of_dvd _ (Nat.dvd_mul_left 256 _)]
  · next hk =>
    have hlt : x % 256 ^ m < 256 ^ k :=
      (Nat.mod_lt x (by positivity)).trans_le (Nat.pow_le_pow_right (by decide) (Nat.le_of_not_lt hk))
    rw [Nat.div_eq_of_lt hlt]

/-- Lane `k` of `W` is digit `k` of the whole to the base 256. -/
theorem wLane_toNat_base256 (w : Wide) (k : Fin 16) : (wLane w k).toNat = w.toNat / 256 ^ k.val % 256 := by
  rw [wLane_toNat, pow_mul]
  norm_num

/-- A wide value that is a number cut to its low `m` bytes has those bytes in its lanes and zeros above. -/
theorem wLane_toNat_of_mod {w : Wide} {x m : Nat} (hw : w.toNat = x % 256 ^ m) (k : Fin 16) :
    (wLane w k).toNat = if k.val < m then x / 256 ^ k.val % 256 else 0 := by
  rw [wLane_toNat_base256, hw, mod_pow_div_pow_mod]

/-- A result that fits in `W` keeps its number there. -/
theorem toW_toNat {n : Nat} (hn : n ≤ 128) (r : BitVec n) : (toW n r).toNat = r.toNat :=
  BitVec.toNat_setWidth_of_le hn

/-- The narrowing to 8 bits is the cell's raw number cut to one byte. -/
theorem narrowTo8_toNat (c : Cell24) : (narrowTo8 c).toNat = (u24 c).toNat % 256 ^ 1 := by
  have h0 := c.b0.isLt
  rw [narrowTo8, toW_toNat (by decide), u24_toNat]
  omega

/-- The narrowing to 16 bits is the cell's raw number cut to two bytes. -/
theorem narrowTo16_toNat (c : Cell24) : (narrowTo16 c).toNat = (u24 c).toNat % 256 ^ 2 := by
  have h0 := c.b0.isLt
  have h1 := c.b1.isLt
  rw [narrowTo16, toW_toNat (by decide), BitVec.toNat_append, ← Nat.shiftLeft_add_eq_or_of_lt h0, u24_toNat,
    Nat.shiftLeft_eq]
  omega

/-- The unsigned widening to at least 24 bits is the cell's raw number, which is three bytes long. -/
theorem zeroWiden_toNat {n : Nat} (hlo : 24 ≤ n) (hhi : n ≤ 128) (c : Cell24) :
    (zeroWiden n c).toNat = (u24 c).toNat % 256 ^ 3 := by
  have hc := (u24 c).isLt
  rw [zeroWiden, toW_toNat hhi, BitVec.toNat_setWidth_of_le hlo]
  omega

/-- The bits of lane `k` of a result in `W` are the result's bits from `8k` on. -/
theorem wLane_toW_getLsbD (n : Nat) (r : BitVec n) (k : Fin 16) {j : Nat} (hj : j < 8) :
    (wLane (toW n r) k).getLsbD j = r.getLsbD (8 * k.val + j) := by
  have hk : 8 * k.val + j < 128 := by omega
  simp [wLane, toW, hj, hk]

/-- Below the sign extension a signed widening has the bytes of the cell. -/
theorem wLane_signWiden_low {m : Nat} (hm : 3 ≤ m) (c : Cell24) {k : Fin 16} (hk : k.val < 3) :
    wLane (signWiden (8 * m) c) k = (u24 c).extractLsb' (8 * k.val) 8 := by
  apply BitVec.eq_of_getLsbD_eq
  intro j hj
  have hcell : 8 * k.val + j < 24 := by omega
  have hwidth : 8 * k.val + j < 8 * m := by omega
  rw [signWiden, wLane_toW_getLsbD _ _ _ hj, BitVec.getLsbD_signExtend, if_pos hcell]
  simp [hj, hwidth]

/-- Above the cell a signed widening to `m` bytes has copies of the sign up to its width and zeros from there on. -/
theorem wLane_signWiden_high (m : Nat) (c : Cell24) {k : Fin 16} (hk : 3 ≤ k.val) :
    wLane (signWiden (8 * m) c) k = signByte (decide (k.val < m) && (u24 c).msb) := by
  have hall : ∀ j, j < 8 → (0xFF : Byte).getLsbD j = true := by decide
  apply BitVec.eq_of_getLsbD_eq
  intro j hj
  have hcell : ¬ 8 * k.val + j < 24 := by omega
  have hwidth : 8 * k.val + j < 8 * m ↔ k.val < m := by omega
  rw [signWiden, wLane_toW_getLsbD _ _ _ hj, BitVec.getLsbD_signExtend, if_neg hcell, decide_eq_decide.mpr hwidth]
  cases decide (k.val < m) && (u24 c).msb with
  | true => exact (hall j hj).symm
  | false => simp [signByte]

/-- The lanes of a signed widening to `m` bytes, as numbers. -/
theorem wLane_signWiden_toNat {m : Nat} (hm : 3 ≤ m) (c : Cell24) (k : Fin 16) :
    (wLane (signWiden (8 * m) c) k).toNat =
      if k.val < 3 then (u24 c).toNat / 256 ^ k.val % 256 else if k.val < m ∧ s24 c < 0 then 255 else 0 := by
  split
  · next hk =>
    rw [wLane_signWiden_low hm c hk, BitVec.extractLsb'_toNat, Nat.shiftRight_eq_div_pow, pow_mul]
    norm_num
  · next hk =>
    rw [wLane_signWiden_high m c (Nat.le_of_not_lt hk), BitVec.msb_eq_toInt, ← s24, ← Bool.decide_and]
    by_cases hsign : k.val < m ∧ s24 c < 0 <;> simp [signByte, hsign]

section Ready
variable {s : State}

/-- Each signed widening, with its width in bytes. -/
theorem exec_signedWidenings (ra : VIdx) (hf : s.status.fault = false) :
    ∀ p ∈ [(Instr.asi32 ra, 4), (.asi64 ra, 8), (.asi128 ra, 16)],
      exec p.1 s = .next (s.setW (signWiden (8 * p.2) (s.getV ra))) ∧ 3 ≤ p.2 := by
  simp only [List.forall_mem_cons]
  exact ⟨⟨exec_asi32 ra hf, by decide⟩, ⟨exec_asi64 ra hf, by decide⟩, ⟨exec_asi128 ra hf, by decide⟩,
    List.forall_mem_nil _⟩

/-- Each narrowing and unsigned widening, with the number of bytes of the cell it keeps. -/
theorem exec_cutsOfTheRawNumber (ra : VIdx) (hf : s.status.fault = false) :
    ∀ p ∈ [(Instr.asi8 ra, 1), (.asu8 ra, 1), (.asi16 ra, 2), (.asu16 ra, 2), (.asu32 ra, 3), (.asu64 ra, 3),
        (.asu128 ra, 3)],
      ∃ x : Wide, exec p.1 s = .next (s.setW x) ∧ x.toNat = (u24 (s.getV ra)).toNat % 256 ^ p.2 := by
  simp only [List.forall_mem_cons]
  exact ⟨⟨_, exec_asi8 ra hf, narrowTo8_toNat _⟩, ⟨_, exec_asu8 ra hf, narrowTo8_toNat _⟩,
    ⟨_, exec_asi16 ra hf, narrowTo16_toNat _⟩, ⟨_, exec_asu16 ra hf, narrowTo16_toNat _⟩,
    ⟨_, exec_asu32 ra hf, zeroWiden_toNat (by decide) (by decide) _⟩,
    ⟨_, exec_asu64 ra hf, zeroWiden_toNat (by decide) (by decide) _⟩,
    ⟨_, exec_asu128 ra hf, zeroWiden_toNat (by decide) (by decide) _⟩, List.forall_mem_nil _⟩

end Ready

/-- Settles O32: a lane of `W` is a digit of the whole to the base 256, the packs write the lanes read here, and each
result in `W` is a sign extension or a cut of the cell's raw number. -/
theorem hostReadsSingleLanes : Obligations.HostReadsSingleLanes := by
  refine ⟨fun s k => wLane_toNat_base256 s.w k, fun s ra hf => ?_⟩
  simp only [← u24_toNat]
  refine ⟨⟨_, exec_pkle ra hf, rfl, rfl, rfl⟩, ⟨_, exec_pkbe ra hf, rfl, rfl, rfl⟩, ?signed, ?cut⟩
  case signed =>
    intro p hp
    obtain ⟨hexec, hwidth⟩ := exec_signedWidenings ra hf p hp
    exact ⟨_, hexec, wLane_signWiden_toNat hwidth (s.getV ra)⟩
  case cut =>
    intro p hp
    obtain ⟨x, hexec, hx⟩ := exec_cutsOfTheRawNumber ra hf p hp
    exact ⟨_, hexec, wLane_toNat_of_mod hx⟩

end Sys2Proof.Machine
end

section
/-! PROOFS. The opcode map as a table, and the command word as its five fields (30_encoding.md R61, R62, R64). Each row
is found by its opcode and by its mnemonic, and each command is built by one row from its fields. -/

namespace Sys2Proof

/-- The four register fields `(rd, ra, rb, rc)` of a command or a word (30_encoding.md R61). -/
abbrev Fields := VIdx × VIdx × VIdx × VIdx

/-- The fields the format does not use are zero (30_encoding.md R63). -/
def Format.UnusedZero (f : Format) (x : Fields) : Prop :=
  (f.uses.1 = false → x.1 = 0) ∧ (f.uses.2.1 = false → x.2.1 = 0) ∧
    (f.uses.2.2.1 = false → x.2.2.1 = 0) ∧ (f.uses.2.2.2 = false → x.2.2.2 = 0)

/-- A field where it is kept, zero where it is not. -/
def keepIf (keep : Bool) (k : VIdx) : VIdx := if keep then k else 0

/-- The fields the format uses, zero in place of the others. -/
def Format.keepUsed (f : Format) (x : Fields) : Fields :=
  (keepIf f.uses.1 x.1, keepIf f.uses.2.1 x.2.1, keepIf f.uses.2.2.1 x.2.2.1, keepIf f.uses.2.2.2 x.2.2.2)

/-- The fields the format does not use, zero in place of the others. -/
def Format.keepUnused (f : Format) (x : Fields) : Fields :=
  (keepIf (!f.uses.1) x.1, keepIf (!f.uses.2.1) x.2.1, keepIf (!f.uses.2.2.1) x.2.2.1, keepIf (!f.uses.2.2.2) x.2.2.2)

theorem keepIf_eq_self {used : Bool} {k : VIdx} (h : used = false → k = 0) : keepIf used k = k := by
  cases used with
  | false => exact (h rfl).symm
  | true => rfl

theorem keepIf_not_eq_zero_iff {used : Bool} {k : VIdx} : keepIf (!used) k = 0 ↔ (used = false → k = 0) := by
  cases used <;> simp [keepIf]

theorem Format.keepUsed_eq_self {f : Format} {x : Fields} (h : f.UnusedZero x) : f.keepUsed x = x := by
  obtain ⟨hrd, hra, hrb, hrc⟩ := h
  simp only [Format.keepUsed, keepIf_eq_self hrd, keepIf_eq_self hra, keepIf_eq_self hrb, keepIf_eq_self hrc]

theorem Format.keepUnused_eq_zero_iff {f : Format} {x : Fields} :
    f.keepUnused x = (0, 0, 0, 0) ↔ f.UnusedZero x := by
  simp only [Format.keepUnused, Prod.mk.injEq, keepIf_not_eq_zero_iff, Format.UnusedZero]

/-- The command a row builds from the four fields. -/
def OpcodeRow.command (r : OpcodeRow) (x : Fields) : Instr := r.build x.1 x.2.1 x.2.2.1 x.2.2.2

/-- The word of an opcode and four fields. -/
def packWord (op : BitVec 8) (x : Fields) : CmdWord := packFields op x.1 x.2.1 x.2.2.1 x.2.2.2

/-- The four register fields of a word. -/
def fieldsIn (w : CmdWord) : Fields := (fieldRd w, fieldRa w, fieldRb w, fieldRc w)

theorem encode_eq_packWord (i : Instr) : encode i = packWord (opcodeOf i) (fieldsOf i) := rfl

/-- Where no two elements share a key, a search by key finds exactly the element with that key. -/
theorem find?_key_eq_some_iff {α κ : Type} [BEq κ] [LawfulBEq κ] {key : α → κ} {l : List α}
    (hnodup : (l.map key).Nodup) {k : κ} {r : α} :
    l.find? (fun x => key x == k) = some r ↔ r ∈ l ∧ key r = k := by
  constructor
  · intro h
    exact ⟨List.mem_of_find?_eq_some h, by simpa using List.find?_some h⟩
  · rintro ⟨hr, rfl⟩
    cases hfind : l.find? (fun x => key x == key r) with
    | none => exact absurd (List.find?_eq_none.mp hfind r hr) (by simp)
    | some x =>
      have hkey : key x = key r := by simpa using List.find?_some hfind
      rw [List.inj_on_of_nodup_map hnodup (List.mem_of_find?_eq_some hfind) hr hkey]

theorem opcodeMap_nodup_op : (opcodeMap.map (·.op)).Nodup := by decide

theorem opcodeMap_nodup_mnemonic : (opcodeMap.map (·.mnemonic)).Nodup := by decide

/-- A row is found by its opcode. -/
theorem find?_op_eq_some_iff {op : BitVec 8} {r : OpcodeRow} :
    opcodeMap.find? (fun r => r.op == op) = some r ↔ r ∈ opcodeMap ∧ r.op = op :=
  find?_key_eq_some_iff (key := OpcodeRow.op) opcodeMap_nodup_op

/-- A row is found by its mnemonic. -/
theorem find?_mnemonic_eq_some_iff {m : List Char} {r : OpcodeRow} :
    opcodeMap.find? (fun r => r.mnemonic == m) = some r ↔ r ∈ opcodeMap ∧ r.mnemonic = m :=
  find?_key_eq_some_iff (key := OpcodeRow.mnemonic) opcodeMap_nodup_mnemonic

/-- The format of a row is the one the opcode lists of WellFormed.lean give its opcode. -/
theorem formatOfOp_of_mem {r : OpcodeRow} (hr : r ∈ opcodeMap) : formatOfOp r.op.toNat = some r.format := by
  have hrows : ∀ r ∈ opcodeMap, formatOfOp r.op.toNat = some r.format := by decide
  exact hrows r hr

/-- Every opcode of the lists of WellFormed.lean has a row. -/
theorem mem_ops_of_formatOfOp {n : Nat} {f : Format} (h : formatOfOp n = some f) :
    n ∈ opcodeMap.map (·.op.toNat) := by
  have hlists : ∀ m ∈ [0x00] ++ opsD ++ opsA ++ opsDA ++ [0x60] ++ opsDAB ++ [0x61],
      m ∈ opcodeMap.map (·.op.toNat) := by decide
  apply hlists
  unfold formatOfOp at h
  split_ifs at h <;> simp_all

/-- The map and the lists of WellFormed.lean assign the same formats. -/
theorem formatOfOp_eq_some_iff {op : BitVec 8} {f : Format} :
    formatOfOp op.toNat = some f ↔ ∃ r ∈ opcodeMap, r.op = op ∧ r.format = f := by
  constructor
  · intro h
    obtain ⟨r, hr, hop⟩ := List.mem_map.mp (mem_ops_of_formatOfOp h)
    have hop : r.op = op := BitVec.eq_of_toNat_eq hop
    refine ⟨r, hr, hop, ?_⟩
    rw [← hop, formatOfOp_of_mem hr] at h
    exact Option.some.inj h
  · rintro ⟨r, hr, rfl, rfl⟩
    exact formatOfOp_of_mem hr

/-- Every command is built by a row with its opcode from its fields, and its unused fields are zero. -/
theorem exists_row (i : Instr) :
    ∃ r ∈ opcodeMap, r.op = opcodeOf i ∧ r.format.UnusedZero (fieldsOf i) ∧ r.command (fieldsOf i) = i := by
  have hfound : ∃ r, opcodeMap.find? (fun r => r.op == opcodeOf i) = some r ∧
      r.format.UnusedZero (fieldsOf i) ∧ r.command (fieldsOf i) = i := by
    cases i <;> exact ⟨_, rfl, by simp [Format.UnusedZero, Format.uses, fieldsOf], rfl⟩
  obtain ⟨r, hfind, hrow⟩ := hfound
  obtain ⟨hr, hop⟩ := find?_op_eq_some_iff.mp hfind
  exact ⟨r, hr, hop, hrow⟩

/-- A row builds commands with its own opcode and the fields its format uses. -/
theorem row_command {r : OpcodeRow} (hr : r ∈ opcodeMap) (x : Fields) :
    opcodeOf (r.command x) = r.op ∧ fieldsOf (r.command x) = r.format.keepUsed x := by
  have hrows : ∀ r ∈ opcodeMap, ∀ x : Fields,
      opcodeOf (r.command x) = r.op ∧ fieldsOf (r.command x) = r.format.keepUsed x := by
    iterate 47 refine List.forall_mem_cons.mpr ⟨fun _ => ⟨rfl, rfl⟩, ?_⟩
    exact List.forall_mem_nil _
  exact hrows r hr x

/-- A command word is `op*256 + rd*64 + ra*16 + rb*4 + rc` (30_encoding.md R61). -/
theorem packFields_toNat (op : BitVec 8) (rd ra rb rc : VIdx) :
    (packFields op rd ra rb rc).toNat = op.toNat * 256 + rd * 64 + ra * 16 + rb * 4 + rc := by
  have append_toNat : ∀ {n : Nat} (x : BitVec n) (y : BitVec 2), (x ++ y).toNat = x.toNat * 4 + y.toNat := by
    intro n x y
    rw [BitVec.toNat_append, ← Nat.shiftLeft_add_eq_or_of_lt y.isLt, Nat.shiftLeft_eq]
  simp only [packFields, append_toNat, BitVec.toNat_ofFin]
  omega

theorem fieldOp_toNat (w : CmdWord) : (fieldOp w).toNat = w.toNat / 256 := by
  have hw := w.isLt
  simp only [fieldOp, BitVec.extractLsb'_toNat, Nat.shiftRight_eq_div_pow]
  omega

/-- Two bits of a word as a register index. -/
theorem extractLsb'_two_toFin_val (w : CmdWord) (n : Nat) :
    ((w.extractLsb' n 2).toFin : Nat) = w.toNat / 2 ^ n % 4 := by
  simp [Nat.shiftRight_eq_div_pow]

theorem fieldRd_val (w : CmdWord) : (fieldRd w : Nat) = w.toNat / 64 % 4 := extractLsb'_two_toFin_val w 6
theorem fieldRa_val (w : CmdWord) : (fieldRa w : Nat) = w.toNat / 16 % 4 := extractLsb'_two_toFin_val w 4
theorem fieldRb_val (w : CmdWord) : (fieldRb w : Nat) = w.toNat / 4 % 4 := extractLsb'_two_toFin_val w 2
theorem fieldRc_val (w : CmdWord) : (fieldRc w : Nat) = w.toNat % 4 := by
  rw [fieldRc, extractLsb'_two_toFin_val, pow_zero, Nat.div_one]

@[simp] theorem fieldOp_packWord (op : BitVec 8) (x : Fields) : fieldOp (packWord op x) = op := by
  apply BitVec.eq_of_toNat_eq
  rw [fieldOp_toNat, packWord, packFields_toNat]
  omega

@[simp] theorem fieldsIn_packWord (op : BitVec 8) (x : Fields) : fieldsIn (packWord op x) = x := by
  obtain ⟨rd, ra, rb, rc⟩ := x
  simp only [fieldsIn, packWord, Prod.mk.injEq, Fin.ext_iff, fieldRd_val, fieldRa_val, fieldRb_val, fieldRc_val,
    packFields_toNat]
  omega

/-- A word is its five fields. -/
@[simp] theorem packWord_fields (w : CmdWord) : packWord (fieldOp w) (fieldsIn w) = w := by
  apply BitVec.eq_of_toNat_eq
  have hw := w.isLt
  simp only [packWord, fieldsIn, packFields_toNat, fieldOp_toNat, fieldRd_val, fieldRa_val, fieldRb_val, fieldRc_val]
  omega

theorem packWord_inj {op op' : BitVec 8} {x x' : Fields} : packWord op x = packWord op' x' ↔ op = op' ∧ x = x' := by
  constructor
  · intro h
    have hop := congrArg fieldOp h
    have hx := congrArg fieldsIn h
    simp only [fieldOp_packWord, fieldsIn_packWord] at hop hx
    exact ⟨hop, hx⟩
  · rintro ⟨rfl, rfl⟩
    rfl

end Sys2Proof
end

section
/-! PROOFS. Decoding and encoding are inverse, and the decoder accepts exactly the words of the format check
(30_encoding.md R62, R63, R65, R66). -/

namespace Sys2Proof
open Sys2Proof.Machine

/-- The mask of a format keeps the opcode and the unused fields (30_encoding.md R62). -/
theorem packWord_and_formatMask (op : BitVec 8) (x : Fields) (f : Format) :
    packWord op x &&& formatMask f = packWord op (f.keepUnused x) := by
  have hfield : ∀ (used : Bool) (k : VIdx),
      BitVec.ofFin (w := 2) k &&& (if used then 0#2 else 3#2) = BitVec.ofFin (keepIf (!used) k) := by decide
  have hmask : formatMask f = 0xFF#8 ++ (if f.uses.1 then 0#2 else 3#2) ++ (if f.uses.2.1 then 0#2 else 3#2)
      ++ (if f.uses.2.2.1 then 0#2 else 3#2) ++ (if f.uses.2.2.2 then 0#2 else 3#2) := by
    cases f <;> rfl
  have hop : op &&& 0xFF#8 = op := BitVec.and_allOnes
  rw [hmask]
  refine (BitVec.and_append (w := 8 + 2 + 2 + 2) (v := 2)).trans ?_
  simp only [packWord, packFields, Format.keepUnused, BitVec.and_append, hfield, hop]

/-- The decoder's test of a row: the opcode is the row's and the unused fields are zero (30_encoding.md R66). -/
theorem and_formatMask_eq_iff {w : CmdWord} {op : BitVec 8} {f : Format} :
    w &&& formatMask f = op ++ (0 : BitVec 8) ↔ fieldOp w = op ∧ f.UnusedZero (fieldsIn w) := by
  have hzero : op ++ (0 : BitVec 8) = packWord op (0, 0, 0, 0) := by
    apply BitVec.eq_of_toNat_eq
    rw [packWord, packFields_toNat]
    refine (BitVec.toNat_append op 0#8).trans ?_
    simp [Nat.shiftLeft_eq]
  rw [hzero, ← packWord_fields w, packWord_and_formatMask, packWord_inj, packWord_fields,
    Format.keepUnused_eq_zero_iff]

/-- What the decoder answers: the command of the row with the word's opcode, where the unused fields are zero
(30_encoding.md R66). -/
theorem decode_eq_some_iff_row {w : CmdWord} {i : Instr} :
    decode w = some i ↔ ∃ r ∈ opcodeMap, r.op = fieldOp w ∧ r.format.UnusedZero (fieldsIn w) ∧
      r.command (fieldsIn w) = i := by
  rw [decode_eq_some_iff]
  unfold decodeWord
  constructor
  · intro h
    split at h
    · cases h
    · next r hfind =>
      obtain ⟨hr, hop⟩ := find?_op_eq_some_iff.mp hfind
      split at h
      · next hmask =>
        obtain ⟨-, hzero⟩ := and_formatMask_eq_iff.mp hmask
        exact ⟨r, hr, hop, hzero, Decoded.command.inj h⟩
      · cases h
  · rintro ⟨r, hr, hop, hzero, hi⟩
    have hmask : w &&& formatMask r.format = r.op ++ (0 : BitVec 8) := and_formatMask_eq_iff.mpr ⟨hop.symm, hzero⟩
    rw [find?_op_eq_some_iff.mpr ⟨hr, hop⟩]
    exact (if_pos hmask).trans (congrArg Decoded.command hi)

/-- Decoding the word of a command gives the command back. -/
theorem decode_encode (i : Instr) : decode (encode i) = some i := by
  obtain ⟨r, hr, hop, hzero, hi⟩ := exists_row i
  rw [encode_eq_packWord, decode_eq_some_iff_row]
  refine ⟨r, hr, ?_, ?_, ?_⟩
  · rw [fieldOp_packWord, hop]
  · rwa [fieldsIn_packWord]
  · rwa [fieldsIn_packWord]

/-- The word a command was decoded from is the command's own word. -/
theorem encode_of_decode {w : CmdWord} {i : Instr} (h : decode w = some i) : encode i = w := by
  obtain ⟨r, hr, hop, hzero, rfl⟩ := decode_eq_some_iff_row.mp h
  obtain ⟨hcode, hfields⟩ := row_command hr (fieldsIn w)
  rw [encode_eq_packWord, hcode, hfields, Format.keepUsed_eq_self hzero, hop, packWord_fields]

/-- A word decodes exactly when its opcode has a row and the fields the row's format does not use are zero. -/
theorem decode_isSome_iff {w : CmdWord} :
    (decode w).isSome = true ↔ ∃ r ∈ opcodeMap, r.op = fieldOp w ∧ r.format.UnusedZero (fieldsIn w) := by
  rw [Option.isSome_iff_exists]
  constructor
  · rintro ⟨i, hi⟩
    obtain ⟨r, hr, hop, hzero, -⟩ := decode_eq_some_iff_row.mp hi
    exact ⟨r, hr, hop, hzero⟩
  · rintro ⟨r, hr, hop, hzero⟩
    exact ⟨_, decode_eq_some_iff_row.mpr ⟨r, hr, hop, hzero, rfl⟩⟩

/-- The second check of WellFormed.lean, for a word whose opcode has the format `f`. -/
theorem unusedFieldsZero_iff {w : CmdWord} {f : Format} (hf : formatOfOp (fieldOp w).toNat = some f) :
    unusedFieldsZero w = true ↔ f.UnusedZero (fieldsIn w) := by
  rw [fieldOp_toNat] at hf
  unfold unusedFieldsZero
  simp only [hf, Format.UnusedZero, fieldsIn, Fin.ext_iff, fieldRd_val, fieldRa_val, fieldRb_val, fieldRc_val]
  cases f <;> simp [Format.uses, and_assoc]

/-- The whole check of WellFormed.lean in terms of the word's fields. -/
theorem wellFormedWord_iff {w : CmdWord} :
    wellFormedWord w = true ↔ ∃ f, formatOfOp (fieldOp w).toNat = some f ∧ f.UnusedZero (fieldsIn w) := by
  have hassigned : opcodeAssigned w = true ↔ ∃ f, formatOfOp (fieldOp w).toNat = some f := by
    rw [opcodeAssigned, ← fieldOp_toNat, Option.isSome_iff_exists]
  rw [wellFormedWord, Bool.and_eq_true, hassigned]
  constructor
  · rintro ⟨⟨f, hf⟩, hzero⟩
    exact ⟨f, hf, (unusedFieldsZero_iff hf).mp hzero⟩
  · rintro ⟨f, hf, hzero⟩
    exact ⟨⟨f, hf⟩, (unusedFieldsZero_iff hf).mpr hzero⟩

/-- Settles O2: both sides say that the opcode is assigned a format whose unused fields are zero in the word. -/
theorem decodedWordsAreWellFormedWords : Obligations.DecodedWordsAreWellFormedWords := by
  intro w
  rw [Bool.eq_iff_iff, decode_isSome_iff, wellFormedWord_iff]
  constructor
  · rintro ⟨r, hr, hop, hzero⟩
    exact ⟨r.format, formatOfOp_eq_some_iff.mpr ⟨r, hr, hop, rfl⟩, hzero⟩
  · rintro ⟨f, hf, hzero⟩
    obtain ⟨r, hr, hop, rfl⟩ := formatOfOp_eq_some_iff.mp hf
    exact ⟨r, hr, hop, hzero⟩

/-- Settles O1: encoding packs the fields its row reads back, and a word with a non-zero unused field fails the format
check. -/
theorem decodeEncodeAgree : Obligations.DecodeEncodeAgree := by
  refine ⟨decode_encode, fun _ _ => encode_of_decode, fun w hw => ?_⟩
  have hillegal : wellFormedWord w = false := by rw [wellFormedWord, hw, Bool.and_false]
  rwa [← decodedWordsAreWellFormedWords w, Option.isSome_eq_false_iff, Option.isNone_iff_eq_none] at hillegal

/-- Settles O4: the decoder is run on the sixteen words. -/
theorem listedWordsDecodeAsListed : Obligations.ListedWordsDecodeAsListed := by
  unfold Obligations.ListedWordsDecodeAsListed
  decide

end Sys2Proof
end

section
/-! PROOFS. The legal words, listed row by row (30_encoding.md R65). -/

namespace Sys2Proof

/-- The values of one field: all four where it is used, zero alone where it is not (30_encoding.md R61, R63). -/
def fieldValues (used : Bool) : List VIdx := if used then List.finRange 4 else [0]

/-- The choices of the four fields that a format allows. -/
def Format.fieldChoices (f : Format) : List Fields :=
  fieldValues f.uses.1 ×ˢ fieldValues f.uses.2.1 ×ˢ fieldValues f.uses.2.2.1 ×ˢ fieldValues f.uses.2.2.2

/-- The words of one row of the opcode map. -/
def OpcodeRow.words (r : OpcodeRow) : List CmdWord := r.format.fieldChoices.map (packWord r.op)

/-- The legal words, row by row. -/
def legalWords : List CmdWord := opcodeMap.flatMap OpcodeRow.words

theorem mem_fieldValues {used : Bool} {k : VIdx} : k ∈ fieldValues used ↔ (used = false → k = 0) := by
  cases used <;> simp [fieldValues]

theorem nodup_fieldValues (used : Bool) : (fieldValues used).Nodup := by
  cases used <;> decide

theorem mem_fieldChoices {f : Format} {x : Fields} : x ∈ f.fieldChoices ↔ f.UnusedZero x := by
  obtain ⟨rd, ra, rb, rc⟩ := x
  simp only [Format.fieldChoices, SProd.sprod, List.pair_mem_product, mem_fieldValues, Format.UnusedZero]

theorem nodup_fieldChoices (f : Format) : f.fieldChoices.Nodup :=
  (nodup_fieldValues _).product <| (nodup_fieldValues _).product <| (nodup_fieldValues _).product (nodup_fieldValues _)

/-- A word is one of a row's words exactly when it has the row's opcode and zero in the unused fields. -/
theorem mem_words {r : OpcodeRow} {w : CmdWord} :
    w ∈ r.words ↔ r.op = fieldOp w ∧ r.format.UnusedZero (fieldsIn w) := by
  rw [OpcodeRow.words, List.mem_map]
  constructor
  · rintro ⟨x, hx, rfl⟩
    rw [fieldOp_packWord, fieldsIn_packWord]
    exact ⟨rfl, mem_fieldChoices.mp hx⟩
  · rintro ⟨hop, hzero⟩
    exact ⟨fieldsIn w, mem_fieldChoices.mpr hzero, by rw [hop, packWord_fields]⟩

theorem nodup_words (r : OpcodeRow) : r.words.Nodup :=
  (nodup_fieldChoices r.format).map fun _ _ h => (packWord_inj.mp h).2

/-- No word is listed twice: in a row the fields tell the words apart, and between rows the opcode does. -/
theorem nodup_legalWords : legalWords.Nodup := by
  refine List.nodup_flatMap.mpr ⟨fun r _ => nodup_words r, ?_⟩
  refine (List.pairwise_map.mp opcodeMap_nodup_op).imp fun {r r'} hne w hw hw' => hne ?_
  obtain ⟨hop, -⟩ := mem_words.mp hw
  obtain ⟨hop', -⟩ := mem_words.mp hw'
  rw [hop, hop']

/-- A row has one word for each choice of its used fields. -/
theorem length_words (r : OpcodeRow) :
    r.words.length = (fieldValues r.format.uses.1).length * ((fieldValues r.format.uses.2.1).length *
      ((fieldValues r.format.uses.2.2.1).length * (fieldValues r.format.uses.2.2.2).length)) := by
  simp only [OpcodeRow.words, List.length_map, Format.fieldChoices, List.length_product]

/-- The sum over the 47 rows (30_encoding.md R65). -/
theorem length_legalWords : legalWords.length = 1085 := by
  simp only [legalWords, List.length_flatMap, length_words]
  decide

/-- Settles O3: the rows' words are distinct, 1085 in number, and the words that decode. -/
theorem legalWordCountIs1085 : Obligations.LegalWordCountIs1085 := by
  refine ⟨legalWords, nodup_legalWords, length_legalWords, fun w => ?_⟩
  simp only [decode_isSome_iff, legalWords, List.mem_flatMap, mem_words]

end Sys2Proof
end

section
/-! PROOFS. The in-place forms (30_encoding.md R68) against the same commands with another destination: both read their
sources before they write (70_reset_and_hazards.md R204). -/

namespace Sys2Proof.Machine
open Sys2Proof

/-- The commands `i`, which writes cell `d`, and `j`, which writes cell `e`, compute the same in the state `s`, and
cell `d` is intact when they fault. -/
def ComputeTheSame (i j : Instr) (d e : VIdx) (s : State) : Prop :=
  ∃ t u, exec i s = .next t ∧ exec j s = .next u ∧ t.status = u.status ∧
    (t.status.fault = false → t.getV d = u.getV e) ∧ (t.status.fault = true → t.getV d = s.getV d)

section Ready
variable {s : State} {i j : Instr} {d e : VIdx}

/-- Two commands that write the same value compute the same. -/
theorem computeTheSame_of_write (hf : s.status.fault = false) {c : Cell24} (hi : exec i s = .next (s.setV d c))
    (hj : exec j s = .next (s.setV e c)) : ComputeTheSame i j d e s :=
  ⟨_, _, hi, hj, rfl, fun _ => by rw [State.getV_setV_same, State.getV_setV_same],
    fun hfault => by simp [hf] at hfault⟩

/-- Two commands that fault with the same cause compute the same, and the record keeps every cell. -/
theorem computeTheSame_of_fault {k : Cause} {w w' : CmdWord} (hi : exec i s = .next (s.enterFault k w))
    (hj : exec j s = .next (s.enterFault k w')) : ComputeTheSame i j d e s :=
  ⟨_, _, hi, hj, rfl, fun hready => by simp at hready, fun _ => rfl⟩

variable (a b : VIdx) (hf : s.status.fault = false)
include hf

/-- The quotient does not depend on its destination, and neither does the test of the divisor. -/
theorem computeTheSame_div : ComputeTheSame (.div d a b) (.div e a b) d e s := by
  by_cases hz : u24 (s.getV b) = 0
  · exact computeTheSame_of_fault (exec_div_zero d a b hf hz) (exec_div_zero e a b hf hz)
  · exact computeTheSame_of_write hf (exec_div_nonzero d a b hf hz) (exec_div_nonzero e a b hf hz)

/-- The remainder does not depend on its destination, and neither does the test of the divisor. -/
theorem computeTheSame_rem : ComputeTheSame (.rem d a b) (.rem e a b) d e s := by
  by_cases hz : u24 (s.getV b) = 0
  · exact computeTheSame_of_fault (exec_rem_zero d a b hf hz) (exec_rem_zero e a b hf hz)
  · exact computeTheSame_of_write hf (exec_rem_nonzero d a b hf hz) (exec_rem_nonzero e a b hf hz)

end Ready

/-- Settles O56: each of the twelve commands writes a value of its source cells, or faults on them, whatever its
destination. -/
theorem inPlaceFormsComputeTheSame : Obligations.InPlaceFormsComputeTheSame := by
  intro s d e b hf
  show ∀ p ∈ (_ : List (Pseudo × Instr)), ComputeTheSame (expandPseudo p.1) p.2 d e s
  simp only [List.forall_mem_cons, expandPseudo]
  exact ⟨computeTheSame_of_write hf (exec_add d d b hf) (exec_add e d b hf),
    computeTheSame_of_write hf (exec_sub d d b hf) (exec_sub e d b hf),
    computeTheSame_of_write hf (exec_mul d d b hf) (exec_mul e d b hf),
    computeTheSame_div d b hf, computeTheSame_rem d b hf,
    computeTheSame_of_write hf (exec_and d d b hf) (exec_and e d b hf),
    computeTheSame_of_write hf (exec_or d d b hf) (exec_or e d b hf),
    computeTheSame_of_write hf (exec_xor d d b hf) (exec_xor e d b hf),
    computeTheSame_of_write hf (exec_shl d d b hf) (exec_shl e d b hf),
    computeTheSame_of_write hf (exec_shr d d b hf) (exec_shr e d b hf),
    computeTheSame_of_write hf (exec_neg d d hf) (exec_neg e d hf),
    computeTheSame_of_write hf (exec_not d d hf) (exec_not e d hf), List.forall_mem_nil _⟩

end Sys2Proof.Machine
end

section
/-! PROOFS. How the assembler takes a line apart (30_encoding.md R67): a line made of a mnemonic and operands without
blanks, commas and semicolons is cut into that mnemonic and those operands again. -/

namespace Sys2Proof.Machine
open Sys2Proof

/-- A character that neither separates the words of a line nor starts a comment. -/
def isTokenChar (c : Char) : Bool := !isBlank c && c != ',' && c != ';'

/-- A word of a line: not empty, and without a character that separates words or starts a comment. -/
def IsToken (l : List Char) : Prop := l ≠ [] ∧ l.all isTokenChar = true

theorem isTokenChar_iff {c : Char} : isTokenChar c = true ↔ isBlank c = false ∧ c ≠ ',' ∧ c ≠ ';' := by
  simp [isTokenChar, and_assoc]

section Token
variable {l : List Char} (h : IsToken l) {c : Char} (hc : c ∈ l)
include h hc

/-- What a word of a line says of each of its characters. -/
theorem not_separator_of_isToken : isBlank c = false ∧ c ≠ ',' ∧ c ≠ ';' := by
  obtain ⟨-, hall⟩ := h
  exact isTokenChar_iff.mp (List.all_eq_true.mp hall c hc)

theorem not_blank_of_isToken : isBlank c = false := by
  obtain ⟨hblank, -, -⟩ := not_separator_of_isToken h hc
  exact hblank

theorem not_comma_of_isToken : c ≠ ',' := by
  obtain ⟨-, hcomma, -⟩ := not_separator_of_isToken h hc
  exact hcomma

theorem not_semicolon_of_isToken : c ≠ ';' := by
  obtain ⟨-, -, hsemicolon⟩ := not_separator_of_isToken h hc
  exact hsemicolon

end Token

/-- A text that is not empty and has no blank at its two ends. -/
def SolidEnds (l : List Char) : Prop :=
  l ≠ [] ∧ (∀ c ∈ l.head?, isBlank c = false) ∧ (∀ c ∈ l.getLast?, isBlank c = false)

theorem solidEnds_of_isToken {l : List Char} (h : IsToken l) : SolidEnds l :=
  ⟨h.1, fun _ hc => not_blank_of_isToken h (List.mem_of_mem_head? hc),
    fun _ hc => not_blank_of_isToken h (List.mem_of_mem_getLast? hc)⟩

theorem solidEnds_append {x y : List Char} (mid : List Char) (hx : SolidEnds x) (hy : SolidEnds y) :
    SolidEnds (x ++ mid ++ y) := by
  obtain ⟨hne, hhead, -⟩ := hx
  obtain ⟨hne', -, hlast⟩ := hy
  refine ⟨by simp [hne], ?_, ?_⟩
  · rwa [List.append_assoc, List.head?_append_of_ne_nil _ hne]
  · rwa [List.getLast?_append_of_ne_nil _ hne']

theorem dropWhile_of_head {p : Char → Bool} {l : List Char} (h : ∀ c ∈ l.head?, p c = false) :
    l.dropWhile p = l := by
  cases l with
  | nil => rfl
  | cons a l => rw [List.dropWhile_cons_of_neg (by simp [h a rfl])]

/-- A text without blanks at its ends stays as it is. -/
theorem trimBlanks_of_solidEnds {l : List Char} (h : SolidEnds l) : trimBlanks l = l := by
  obtain ⟨-, hhead, hlast⟩ := h
  rw [trimBlanks, dropWhile_of_head hhead, dropWhile_of_head (by rwa [List.head?_reverse]), List.reverse_reverse]

/-- A leading space is dropped. -/
theorem trimBlanks_space (l : List Char) : trimBlanks (' ' :: l) = trimBlanks l := rfl

theorem commaSeparated_cons (x : List Char) {rest : List (List Char)} (hrest : rest ≠ []) :
    commaSeparated (x :: rest) = x ++ ',' :: ' ' :: commaSeparated rest := by
  rw [commaSeparated] <;> simp [hrest]

theorem solidEnds_commaSeparated {ops : List (List Char)} (hne : ops ≠ []) (h : ∀ x ∈ ops, IsToken x) :
    SolidEnds (commaSeparated ops) := by
  induction ops using commaSeparated.induct with
  | case1 => exact absurd rfl hne
  | case2 x => exact solidEnds_of_isToken (h x (by simp))
  | case3 x rest hrest ih =>
    have hsolid := solidEnds_append [',', ' '] (solidEnds_of_isToken (h x (by simp)))
      (ih hrest fun y hy => h y (by simp [hy]))
    simpa [commaSeparated_cons x hrest] using hsolid

theorem splitCommas_ne_nil (l : List Char) : splitCommas l ≠ [] := by
  cases l with
  | nil => simp [splitCommas]
  | cons c l =>
    rw [splitCommas]
    split
    · simp
    · split <;> simp

/-- A text without a comma is one part. -/
theorem splitCommas_of_not_mem {x : List Char} (hx : ',' ∉ x) : splitCommas x = [x] := by
  induction x with
  | nil => rfl
  | cons c x ih =>
    obtain ⟨hc, hx⟩ : ',' ≠ c ∧ ',' ∉ x := by simpa using hx
    simp [splitCommas, hc.symm, ih hx]

/-- The text before the first comma is the first part. -/
theorem splitCommas_append_comma {x : List Char} (hx : ',' ∉ x) (l : List Char) :
    splitCommas (x ++ ',' :: l) = x :: splitCommas l := by
  induction x with
  | nil => rfl
  | cons c x ih =>
    obtain ⟨hc, hx⟩ : ',' ≠ c ∧ ',' ∉ x := by simpa using hx
    simp [splitCommas, hc.symm, ih hx]

/-- A space in front only reaches the first part, and trimming drops it there. -/
theorem map_trimBlanks_splitCommas_space (l : List Char) :
    (splitCommas (' ' :: l)).map trimBlanks = (splitCommas l).map trimBlanks := by
  cases hl : splitCommas l with
  | nil => exact absurd hl (splitCommas_ne_nil l)
  | cons x rest => simp [splitCommas, hl, trimBlanks_space]

/-- The operands written with commas between them are read back. -/
theorem map_trimBlanks_splitCommas_commaSeparated {ops : List (List Char)} (hne : ops ≠ [])
    (h : ∀ x ∈ ops, IsToken x) : (splitCommas (commaSeparated ops)).map trimBlanks = ops := by
  have hcomma : ∀ x ∈ ops, ',' ∉ x := fun x hx hmem => not_comma_of_isToken (h x hx) hmem rfl
  have htrim : ∀ x ∈ ops, trimBlanks x = x := fun x hx => trimBlanks_of_solidEnds (solidEnds_of_isToken (h x hx))
  clear h
  induction ops using commaSeparated.induct with
  | case1 => exact absurd rfl hne
  | case2 x => simp [commaSeparated, splitCommas_of_not_mem (hcomma x (by simp)), htrim]
  | case3 x rest hrest ih =>
    have ih := ih hrest (fun y hy => hcomma y (by simp [hy])) (fun y hy => htrim y (by simp [hy]))
    rw [commaSeparated_cons x hrest, splitCommas_append_comma (hcomma x (by simp)), List.map_cons,
      map_trimBlanks_splitCommas_space, ih, htrim x (by simp)]

/-- The characters of a list of operands are theirs, the comma and the space. -/
theorem mem_commaSeparated {ops : List (List Char)} {c : Char} (hc : c ∈ commaSeparated ops) :
    c = ',' ∨ c = ' ' ∨ ∃ x ∈ ops, c ∈ x := by
  induction ops using commaSeparated.induct with
  | case1 => simp [commaSeparated] at hc
  | case2 x => exact .inr (.inr ⟨x, by simp, hc⟩)
  | case3 x rest hrest ih =>
    rw [commaSeparated_cons x hrest] at hc
    simp only [List.mem_append, List.mem_cons] at hc
    rcases hc with hc | hc | hc | hc
    · exact .inr (.inr ⟨x, by simp, hc⟩)
    · exact .inl hc
    · exact .inr (.inl hc)
    · rcases ih hc with hc | hc | ⟨y, hy, hc⟩
      · exact .inl hc
      · exact .inr (.inl hc)
      · exact .inr (.inr ⟨y, by simp [hy], hc⟩)

/-- The text before the first blank is the mnemonic. -/
theorem lineOf_mnemonic {mn : List Char} (hmn : IsToken mn) (ops : List (List Char)) :
    (lineOf mn ops).takeWhile (fun c => !isBlank c) = mn := by
  have hsolid : ∀ c ∈ mn, (!isBlank c) = true := fun c hc => by simp [not_blank_of_isToken hmn hc]
  unfold lineOf
  split
  · exact List.takeWhile_eq_self_iff.mpr hsolid
  · rw [List.append_assoc, List.takeWhile_append_of_pos hsolid]
    simp [isBlank]

/-- The operands of a line, for a line with none too. -/
theorem lineOf_operands {ops : List (List Char)} (hops : ∀ x ∈ ops, IsToken x) :
    (if commaSeparated ops = [] then [] else (splitCommas (commaSeparated ops)).map trimBlanks) = ops := by
  by_cases hne : ops = []
  · rw [hne]
    rfl
  · rw [if_neg (solidEnds_commaSeparated hne hops).1, map_trimBlanks_splitCommas_commaSeparated hne hops]

section Line
variable {mn : List Char} {ops : List (List Char)} (hmn : IsToken mn) (hops : ∀ x ∈ ops, IsToken x)
include hmn hops

/-- A line has no semicolon. -/
theorem lineOf_no_comment : (lineOf mn ops).takeWhile (· != ';') = lineOf mn ops := by
  rw [List.takeWhile_eq_self_iff]
  intro c hc
  rw [bne_iff_ne]
  unfold lineOf at hc
  split at hc
  · exact not_semicolon_of_isToken hmn hc
  · simp only [List.mem_append, List.mem_singleton] at hc
    rcases hc with (hc | rfl) | hc
    · exact not_semicolon_of_isToken hmn hc
    · decide
    · rcases mem_commaSeparated hc with rfl | rfl | ⟨x, hx, hc⟩
      · decide
      · decide
      · exact not_semicolon_of_isToken (hops x hx) hc

theorem solidEnds_lineOf : SolidEnds (lineOf mn ops) := by
  unfold lineOf
  split
  · exact solidEnds_of_isToken hmn
  · next hne => exact solidEnds_append _ (solidEnds_of_isToken hmn) (solidEnds_commaSeparated hne hops)

/-- The text of a line is the line: it has no comment and no blanks at its ends. -/
theorem lineOf_text : trimBlanks ((lineOf mn ops).takeWhile (· != ';')) = lineOf mn ops := by
  rw [lineOf_no_comment hmn hops, trimBlanks_of_solidEnds (solidEnds_lineOf hmn hops)]

/-- The text after the mnemonic is the list of operands. -/
theorem lineOf_rest : trimBlanks ((lineOf mn ops).dropWhile (fun c => !isBlank c)) = commaSeparated ops := by
  have hsolid : ∀ c ∈ mn, (!isBlank c) = true := fun c hc => by simp [not_blank_of_isToken hmn hc]
  unfold lineOf
  split
  · next hnil =>
    rw [List.dropWhile_eq_nil_iff.mpr hsolid, hnil]
    rfl
  · next hne =>
    rw [List.append_assoc, List.dropWhile_append_of_pos hsolid]
    exact (trimBlanks_space _).trans (trimBlanks_of_solidEnds (solidEnds_commaSeparated hne hops))

/-- A line that is a host move's name and operands assembles to the move. -/
theorem assembleLine_hostMove {m : HostMove} (hm : parseHostMove mn ops = some m) :
    assembleLine (lineOf mn ops) = some [m] := by
  simp only [assembleLine, lineOf_text hmn hops, lineOf_mnemonic hmn ops, lineOf_rest hmn hops, lineOf_operands hops,
    hm, if_neg (solidEnds_lineOf hmn hops).1]

/-- A line that is no host move and has register operands assembles to the core command it names. -/
theorem assembleLine_command {regs : List VIdx} {i : Instr} (hhost : parseHostMove mn ops = none)
    (hregs : mapAll parseReg ops = some regs) (hi : parseCommand mn regs = some i) :
    assembleLine (lineOf mn ops) = some [.cmd (encode i)] := by
  simp only [assembleLine, lineOf_text hmn hops, lineOf_mnemonic hmn ops, lineOf_rest hmn hops, lineOf_operands hops,
    hhost, hregs, hi, if_neg (solidEnds_lineOf hmn hops).1]

/-- A line that is no host move and no core command assembles to the expansion of the in-place form it names. -/
theorem assembleLine_pseudo {regs : List VIdx} {p : Pseudo} (hhost : parseHostMove mn ops = none)
    (hregs : mapAll parseReg ops = some regs) (hcore : parseCommand mn regs = none)
    (hp : parsePseudo mn regs = some p) :
    assembleLine (lineOf mn ops) = some [.cmd (encode (expandPseudo p))] := by
  simp only [assembleLine, lineOf_text hmn hops, lineOf_mnemonic hmn ops, lineOf_rest hmn hops, lineOf_operands hops,
    hhost, hregs, hcore, hp, if_neg (solidEnds_lineOf hmn hops).1]

end Line

/-- A comment is cut off before the line is read, so it changes nothing (30_encoding.md R67). -/
theorem assembleLine_comment (line comment : List Char) :
    assembleLine (line ++ ';' :: comment) = assembleLine line := by
  have hcut : (line ++ ';' :: comment).takeWhile (· != ';') = line.takeWhile (· != ';') := by
    induction line with
    | nil => rfl
    | cons c line ih =>
      by_cases hc : c = ';'
      · simp [hc]
      · simpa [List.takeWhile_cons, hc] using ih
  simp only [assembleLine, hcut]

end Sys2Proof.Machine
end

section
/-! PROOFS. The numbers of `HOSTT` and `HOSTW`: the decimal text of a number reads back as the number (30_encoding.md
R67, 00_scope.md R6). -/

namespace Sys2Proof.Machine
open Sys2Proof

/-- A character is the digit of a number below ten. -/
def IsDigit (c : Char) : Prop := ∃ d < 10, c = digitOf d

/-- What a digit is to the assembler: its value, and none of the characters with a meaning of their own. -/
theorem digitOf_spec {d : Nat} (hd : d < 10) :
    hexDigit (digitOf d) = some d ∧ isTokenChar (digitOf d) = true ∧ digitOf d ≠ 'x' := by
  have hall : ∀ d < 10, hexDigit (digitOf d) = some d ∧ isTokenChar (digitOf d) = true ∧ digitOf d ≠ 'x' := by
    decide
  exact hall d hd

/-- Reading the digits of `m` and then `acc` is reading `acc` after `m`. -/
theorem parseDigits_digitsFuel {fuel m : Nat} (hm : m ≤ fuel) (acc : List Char) :
    parseDigits 10 (digitsFuel fuel m acc) 0 = parseDigits 10 acc m := by
  induction fuel generalizing m acc with
  | zero => rw [Nat.le_zero.mp hm, digitsFuel]
  | succ fuel ih =>
    rw [digitsFuel]
    split
    · next hzero => rw [hzero]
    · have hlt : m % 10 < 10 := Nat.mod_lt m (by decide)
      obtain ⟨hvalue, -⟩ := digitOf_spec hlt
      rw [ih (by omega)]
      simp only [parseDigits, hvalue, hlt, if_true, Nat.div_add_mod']

/-- Every character in front of `acc` is a digit. -/
theorem mem_digitsFuel {fuel m : Nat} {acc : List Char} {c : Char} (hc : c ∈ digitsFuel fuel m acc) :
    IsDigit c ∨ c ∈ acc := by
  induction fuel generalizing m acc with
  | zero => exact .inr hc
  | succ fuel ih =>
    rw [digitsFuel] at hc
    split at hc
    · exact .inr hc
    · rcases ih hc with hc | hc
      · exact .inl hc
      · rcases List.mem_cons.mp hc with rfl | hc
        · exact .inl ⟨m % 10, Nat.mod_lt m (by decide), rfl⟩
        · exact .inr hc

theorem isDigit_of_mem_natChars {n : Nat} {c : Char} (hc : c ∈ natChars n) : IsDigit c := by
  unfold natChars at hc
  split at hc
  · exact ⟨0, by decide, List.mem_singleton.mp hc⟩
  · simpa using mem_digitsFuel hc

theorem parseDigits_natChars (n : Nat) : parseDigits 10 (natChars n) 0 = some n := by
  unfold natChars
  split
  · next hzero =>
    rw [hzero]
    rfl
  · exact parseDigits_digitsFuel le_rfl []

theorem natChars_ne_nil (n : Nat) : natChars n ≠ [] := by
  intro hnil
  have hread := parseDigits_natChars n
  rw [hnil] at hread
  have hzero : n = 0 := (Option.some.inj hread).symm
  rw [hzero] at hnil
  cases hnil

/-- A text without `x` has no hexadecimal prefix. -/
theorem parseNumber_decimal {l : List Char} (hne : l ≠ []) (hx : 'x' ∉ l) : parseNumber l = parseDigits 10 l 0 := by
  unfold parseNumber
  split <;> simp_all

/-- The decimal text of a number reads back as the number. -/
theorem parseNumber_natChars (n : Nat) : parseNumber (natChars n) = some n := by
  have hx : 'x' ∉ natChars n := by
    intro hmem
    obtain ⟨d, hd, hc⟩ := isDigit_of_mem_natChars hmem
    obtain ⟨-, -, hne⟩ := digitOf_spec hd
    exact hne hc.symm
  rw [parseNumber_decimal (natChars_ne_nil n) hx, parseDigits_natChars]

theorem isToken_natChars (n : Nat) : IsToken (natChars n) := by
  refine ⟨natChars_ne_nil n, List.all_eq_true.mpr fun c hc => ?_⟩
  obtain ⟨d, hd, rfl⟩ := isDigit_of_mem_natChars hc
  obtain ⟨-, htoken, -⟩ := digitOf_spec hd
  exact htoken

end Sys2Proof.Machine
end

section
/-! PROOFS. The assembler reads back its own lines: commands, in-place forms and host moves (30_encoding.md R64, R67,
R68). -/

namespace Sys2Proof.Machine
open Sys2Proof

/-- What is written element by element is read back element by element. -/
theorem mapAll_map {α β : Type} {f : β → Option α} {g : α → β} (hf : ∀ x, f (g x) = some x) (l : List α) :
    mapAll f (l.map g) = some l := by
  induction l with
  | nil => rfl
  | cons x l ih => simp [mapAll, hf, ih]

theorem isToken_regChars (k : VIdx) : IsToken (regChars k) := by
  have hchars : ∀ k : VIdx, (regChars k).all isTokenChar = true := by decide
  exact ⟨by simp [regChars], hchars k⟩

theorem isToken_of_mem_map_regChars {regs : List VIdx} : ∀ x ∈ regs.map regChars, IsToken x := by
  simp only [List.mem_map]
  rintro _ ⟨k, -, rfl⟩
  exact isToken_regChars k

/-- Register names are read back. -/
theorem mapAll_parseReg (regs : List VIdx) : mapAll parseReg (regs.map regChars) = some regs := by
  have hreg : ∀ k : VIdx, parseReg (regChars k) = some k := by decide
  exact mapAll_map hreg regs

/-- A line with register operands is no host move: a register name is no number, and without operands the only host move
is `RESET`. -/
theorem parseHostMove_registers {mn : List Char} (hreset : mn ≠ ['R', 'E', 'S', 'E', 'T']) (regs : List VIdx) :
    parseHostMove mn (regs.map regChars) = none := by
  have hnumber : ∀ k : VIdx, parseNumber (regChars k) = none := by decide
  cases regs with
  | nil => simp [parseHostMove, mapAll, hreset]
  | cons k regs => simp [parseHostMove, mapAll, hnumber]

/-- The fields a format writes are placed where they were. -/
theorem placeFields_usedFields {f : Format} {x : Fields} (hzero : f.UnusedZero x) :
    placeFields f (usedFields f x.1 x.2.1 x.2.2.1 x.2.2.2) = some x := by
  obtain ⟨rd, ra, rb, rc⟩ := x
  cases f <;> simp_all [Format.UnusedZero, Format.uses, usedFields, placeFields]

/-- The line of a command is its row's mnemonic and registers, and these name the command. -/
theorem asmCommand_spec (i : Instr) :
    ∃ r ∈ opcodeMap, ∃ regs, asmCommand i = lineOf r.mnemonic (regs.map regChars) ∧
      parseCommand r.mnemonic regs = some i := by
  obtain ⟨r, hr, hop, hzero, hi⟩ := exists_row i
  have hrow := find?_op_eq_some_iff.mpr ⟨hr, hop⟩
  have hname := find?_mnemonic_eq_some_iff.mpr ⟨hr, rfl⟩
  refine ⟨r, hr, usedFields r.format (fieldsOf i).1 (fieldsOf i).2.1 (fieldsOf i).2.2.1 (fieldsOf i).2.2.2, ?_, ?_⟩
  · simp only [asmCommand, hrow]
  · simp only [parseCommand, hname, placeFields_usedFields hzero]
    exact congrArg some hi

/-- The mnemonics are words of a line, and none is the name of the host move without operands. -/
theorem mnemonic_spec {r : OpcodeRow} (hr : r ∈ opcodeMap) :
    IsToken r.mnemonic ∧ r.mnemonic ≠ ['R', 'E', 'S', 'E', 'T'] := by
  have hrows : ∀ r ∈ opcodeMap, (r.mnemonic ≠ [] ∧ r.mnemonic.all isTokenChar = true) ∧
      r.mnemonic ≠ ['R', 'E', 'S', 'E', 'T'] := by decide
  exact hrows r hr

/-- The line of a command assembles to its one word. -/
theorem assembleLine_asmCommand (i : Instr) : assembleLine (asmCommand i) = some [.cmd (encode i)] := by
  obtain ⟨r, hr, regs, hline, hparse⟩ := asmCommand_spec i
  obtain ⟨htoken, hreset⟩ := mnemonic_spec hr
  rw [hline]
  exact assembleLine_command htoken isToken_of_mem_map_regChars (parseHostMove_registers hreset regs)
    (mapAll_parseReg regs) hparse

/-- An in-place spelling assembles to the word of its expansion. -/
theorem assembleLine_inPlace {mn : List Char} {regs : List VIdx} {p : Pseudo} {i : Instr} (hmn : IsToken mn)
    (hreset : mn ≠ ['R', 'E', 'S', 'E', 'T']) (hcore : parseCommand mn regs = none)
    (hp : parsePseudo mn regs = some p) (hi : expandPseudo p = i) :
    expandPseudo p = i ∧ assembleLine (lineOf mn (regs.map regChars)) = some [.cmd (encode i)] := by
  refine ⟨hi, ?_⟩
  rw [← hi]
  exact assembleLine_pseudo hmn isToken_of_mem_map_regChars (parseHostMove_registers hreset regs)
    (mapAll_parseReg regs) hcore hp

/-- The line of a host move assembles to the move. -/
theorem assembleLine_asmMove {m : HostMove} {line : List Char} (h : asmMove m = some line) :
    assembleLine line = some [m] := by
  have hnumbers : ∀ l : List Nat, mapAll parseNumber (l.map natChars) = some l := mapAll_map parseNumber_natChars
  have htokens : ∀ l : List Nat, ∀ x ∈ l.map natChars, IsToken x := fun l x hx => by
    obtain ⟨n, -, rfl⟩ := List.mem_map.mp hx
    exact isToken_natChars n
  cases m with
  | cmd w =>
    obtain ⟨i, hi, rfl⟩ := Option.map_eq_some_iff.mp h
    rw [assembleLine_asmCommand, encode_of_decode hi]
  | hostWriteT y0 y1 y2 =>
    cases h
    refine assembleLine_hostMove ⟨by decide, by decide⟩ (htokens [y0.toNat, y1.toNat, y2.toNat]) ?_
    rw [parseHostMove, hnumbers]
    simp [y0.isLt, y1.isLt, y2.isLt]
  | hostWriteW x =>
    cases h
    refine assembleLine_hostMove ⟨by decide, by decide⟩ (htokens [x.toNat]) ?_
    rw [parseHostMove, hnumbers]
    simp [x.isLt]
  | reset =>
    cases h
    rfl

/-- Every host move has a line, but for the words that are no command. -/
theorem asmMove_isSome {m : HostMove} (h : wellFormedMove m = true) : (asmMove m).isSome = true := by
  cases m with
  | cmd w => rwa [asmMove, Option.isSome_map, decodedWordsAreWellFormedWords w]
  | _ => rfl

/-- An example line and its word: the word decodes to the command with that line. -/
theorem assembleLine_and_back {w : CmdWord} {i : Instr} {line : List Char} (hd : decode w = some i)
    (hline : asmCommand i = line) :
    assembleLine line = some [.cmd w] ∧ (decode w).map asmCommand = some line := by
  rw [← hline, assembleLine_asmCommand, encode_of_decode hd, hd]
  exact ⟨rfl, rfl⟩

/-- Settles O58: each command's row gives its mnemonic and registers, and the four example lines are those of the
commands their words decode to. -/
theorem assemblerLinesSpellTheMnemonics : Obligations.AssemblerLinesSpellTheMnemonics := by
  refine ⟨fun rd ra rb rc => ?lines, ?examples⟩
  case lines =>
    simp only [List.forall_mem_cons]
    iterate 47 refine ⟨rfl, ?_⟩
    exact List.forall_mem_nil _
  case examples =>
    simp only [List.forall_mem_cons]
    exact ⟨assembleLine_and_back (i := .unpkbe 0) (by decide) rfl,
      assembleLine_and_back (i := .add 2 0 1) (by decide) rfl,
      assembleLine_and_back (i := .clamp 3 0 1 2) (by decide) rfl,
      assembleLine_and_back (i := .cmp 1 2) (by decide) rfl, List.forall_mem_nil _⟩

/-- Settles O59: every line is a list of words that the assembler cuts apart again, registers and numbers read back,
and a comment is cut off first. -/
theorem assemblerReadsItsOwnLines : Obligations.AssemblerReadsItsOwnLines := by
  refine ⟨assembleLine_asmCommand, fun d b => ?inPlace, fun _ _ => assembleLine_asmMove, fun _ => asmMove_isSome,
    ?examples, assembleLine_comment⟩
  case inPlace =>
    simp only [List.forall_mem_cons]
    iterate 12 refine ⟨assembleLine_inPlace ⟨by decide, by decide⟩ (by decide) rfl rfl rfl, ?_⟩
    exact List.forall_mem_nil _
  case examples => exact ⟨by decide, by decide, by decide, by decide, by decide⟩

end Sys2Proof.Machine
end

section
/-! PROOFS. What the statements about single commands ask for, from the command's fields and its one equation: its word
(30_encoding.md R61, R63), its write with the frame, and two commands in sequence. -/

namespace Sys2Proof.Machine
open Sys2Proof Sys2Proof.Safety

/-- A command is the word with the number its opcode and fields make, in both directions. -/
theorem encodes_of_fields {i : Instr} {rd ra rb rc : VIdx} {n : Nat} (hx : fieldsOf i = (rd, ra, rb, rc))
    (hn : (opcodeOf i).toNat * 256 + rd * 64 + ra * 16 + rb * 4 + rc = n) : Encodes i n := by
  have hword : (encode i).toNat = n := by rw [encode_eq_packWord, packWord, packFields_toNat, hx, hn]
  refine ⟨hword, ?_⟩
  rw [← hword, BitVec.ofNat_toNat, BitVec.setWidth_eq, decode_encode]

/-- The word of a format `D` command (30_encoding.md R62). -/
theorem encodes_of_rd {i : Instr} {rd : VIdx} {base : Nat} (hop : (opcodeOf i).toNat * 256 = base)
    (hx : fieldsOf i = (rd, 0, 0, 0)) : Encodes i (base + 64 * rd) :=
  encodes_of_fields hx (by simp [hop, Nat.mul_comm])

/-- The word of a format `A` command (30_encoding.md R62). -/
theorem encodes_of_ra {i : Instr} {ra : VIdx} {base : Nat} (hop : (opcodeOf i).toNat * 256 = base)
    (hx : fieldsOf i = (0, ra, 0, 0)) : Encodes i (base + 16 * ra) :=
  encodes_of_fields hx (by simp [hop, Nat.mul_comm])

theorem writesCell_of_exec {i : Instr} {s : State} {rd : VIdx} {c : Cell24}
    (h : exec i s = .next (s.setV rd c)) : WritesCell i s rd c :=
  ⟨_, h, State.getV_setV_same s rd c, onlyCell_setV s rd c⟩

theorem writesLanes_of_exec {i : Instr} {s : State} {y0 y1 y2 : Byte}
    (h : exec i s = .next (s.setT ⟨y0, y1, y2⟩)) : WritesLanes i s y0 y1 y2 :=
  ⟨_, h, rfl, rfl, rfl, onlyLanes_setT s _⟩

/-- The second command runs in the state the first one answers. -/
theorem execSeq_of_next {i : Instr} {s t : State} (h : exec i s = .next t) (j : Instr) :
    execSeq i j s = exec j t := by
  simp only [execSeq, h]

end Sys2Proof.Machine
end

section
/-! PROOFS. Byte packing and unpacking: the four commands and their laws (41_pack_unpack.md R81 to R85). -/

namespace Sys2Proof.Machine
open Sys2Proof Sys2Proof.Safety

/-- Lanes filled in the opposite order read as the mirrored lanes. -/
theorem Lanes.lane_reversed (y0 y1 y2 : Byte) (k : Fin 3) :
    (Lanes.mk y2 y1 y0).lane k = (Lanes.mk y0 y1 y2).lane (2 - k) := by
  match k with
  | 0 => rfl
  | 1 => rfl
  | 2 => rfl

section Ready
variable {s : State} {i j : Instr} {rd : VIdx}

/-- `PKLE` of the cell written last. -/
theorem exec_pkle_setV (c : Cell24) (hf : s.status.fault = false) :
    exec (.pkle rd) (s.setV rd c) = .next ((s.setV rd c).setT ⟨c.b0, c.b1, c.b2⟩) := by
  rw [exec_pkle (s := s.setV rd c) rd hf, State.getV_setV_same]

/-- `PKBE` of the cell written last. -/
theorem exec_pkbe_setV (c : Cell24) (hf : s.status.fault = false) :
    exec (.pkbe rd) (s.setV rd c) = .next ((s.setV rd c).setT ⟨c.b2, c.b1, c.b0⟩) := by
  rw [exec_pkbe (s := s.setV rd c) rd hf, State.getV_setV_same]

/-- A pack and then an unpack leave in the cell what the unpack takes from the packed lanes. -/
theorem execSeq_pack_unpack {l : Lanes} {c : Cell24} (hpack : exec i s = .next (s.setT l))
    (hunpack : exec j (s.setT l) = .next ((s.setT l).setV rd c)) :
    ∃ t, execSeq i j s = .next t ∧ t.getV rd = c :=
  ⟨_, (execSeq_of_next hpack j).trans hunpack, State.getV_setV_same _ rd c⟩

/-- An unpack and then a pack that writes the lanes' own bytes leave the lanes. -/
theorem execSeq_unpack_pack {c : Cell24} (hunpack : exec i s = .next (s.setV rd c))
    (hpack : exec j (s.setV rd c) = .next ((s.setV rd c).setT s.t)) :
    ∃ t, execSeq i j s = .next t ∧ SameLanes s t :=
  ⟨_, (execSeq_of_next hunpack j).trans hpack, fun _ => rfl⟩

end Ready

/-- Settles O24: both commands are one write of the cell `rd`. -/
theorem unpackTakesTheLanes : Obligations.UnpackTakesTheLanes := fun _ rd hf =>
  ⟨⟨encodes_of_rd (by simp [opcodeOf]) rfl, writesCell_of_exec (exec_unpkle rd hf)⟩,
    ⟨encodes_of_rd (by simp [opcodeOf]) rfl, writesCell_of_exec (exec_unpkbe rd hf)⟩⟩

/-- Settles O25: both commands are one write of the three lanes. -/
theorem packFillsTheLanes : Obligations.PackFillsTheLanes := fun _ ra hf =>
  ⟨⟨encodes_of_ra (by simp [opcodeOf]) rfl, writesLanes_of_exec (exec_pkle ra hf)⟩,
    ⟨encodes_of_ra (by simp [opcodeOf]) rfl, writesLanes_of_exec (exec_pkbe ra hf)⟩⟩

/-- Settles O26: a pack places the bytes and an unpack takes them, so one byte order cancels and a mixed pair swaps the
outer bytes (41_pack_unpack.md R85). -/
theorem packUnpackLaws : Obligations.PackUnpackLaws := by
  intro s ra rd hf
  refine ⟨?cellLE, ?cellBE, ?lanesLE, ?lanesBE, ?reversed, ?swapLE, ?swapBE⟩
  case cellLE => exact execSeq_pack_unpack (exec_pkle ra hf) (exec_unpkle rd hf)
  case cellBE => exact execSeq_pack_unpack (exec_pkbe ra hf) (exec_unpkbe rd hf)
  case lanesLE => exact execSeq_unpack_pack (exec_unpkle rd hf) (exec_pkle_setV _ hf)
  case lanesBE => exact execSeq_unpack_pack (exec_unpkbe rd hf) (exec_pkbe_setV _ hf)
  case reversed => exact ⟨_, _, exec_pkbe ra hf, exec_pkle ra hf, Lanes.lane_reversed _ _ _⟩
  case swapLE => exact execSeq_pack_unpack (exec_pkle ra hf) (exec_unpkbe rd hf)
  case swapBE => exact execSeq_pack_unpack (exec_pkbe ra hf) (exec_unpkle rd hf)

end Sys2Proof.Machine
end

section
/-! PROOFS. The sign test, the widenings and the narrowings: what each writes as a number, in bits and in byte lanes, and
the laws between the results (42_sign_widen_narrow.md R90 to R103). -/

namespace Sys2Proof.Machine
open Sys2Proof Sys2Proof.Safety

/-- Bit 7 of the most significant byte is the cell's bit 23. -/
theorem isNegative_eq_getLsbD (c : Cell24) : isNegative c = (u24 c).getLsbD 23 := by
  simp only [isNegative, u24, BitVec.getLsbD_append]
  rfl

/-- The sign test is the sign bit of the 24-bit vector. -/
theorem isNegative_eq_msb (c : Cell24) : isNegative c = (u24 c).msb := by
  rw [isNegative_eq_getLsbD, BitVec.msb_eq_getLsbD_last]

/-- The sign test is true exactly for a negative value (42_sign_widen_narrow.md R91). -/
theorem isNegative_iff (c : Cell24) : isNegative c = true ↔ s24 c < 0 := by
  rw [isNegative_eq_msb, BitVec.msb_eq_toInt, decide_eq_true_iff, s24]

/-- The raw number of a cell is its value, plus `2^24` for a negative one (00_scope.md R7). -/
theorem u24_toNat_eq_s24 (c : Cell24) : ((u24 c).toNat : Int) = s24 c + if s24 c < 0 then 16777216 else 0 := by
  have hlt := (u24 c).isLt
  have hval : s24 c = _ := BitVec.toInt_eq_toNat_cond (u24 c)
  split at hval <;> split <;> omega

/-- A value and its raw number agree modulo every divisor of `2^24`. -/
theorem s24_emod (c : Cell24) {m : Int} (hm : m ∣ 16777216) : s24 c % m = ((u24 c).toNat : Int) % m := by
  rw [u24_toNat_eq_s24]
  obtain ⟨k, hk⟩ := hm
  split
  · rw [hk, Int.add_mul_emod_self_left]
  · rw [Int.add_zero]

/-- The value of a cell in any wider signed format is its sign extension. -/
theorem ofInt_s24 (n : Nat) (c : Cell24) : BitVec.ofInt n (s24 c) = (u24 c).signExtend n := rfl

/-- A signed format of at least 24 bits holds every value of a cell. -/
theorem toInt_signExtend_u24 {n : Nat} (hn : 24 ≤ n) (c : Cell24) : ((u24 c).signExtend n).toInt = s24 c :=
  BitVec.toInt_signExtend_of_le hn

/-- The low `n` bits of `W` after a width-`n` result are the result. -/
theorem toW_extractLsb' {n : Nat} (hn : n ≤ 128) (r : BitVec n) : (toW n r).extractLsb' 0 n = r := by
  rw [← BitVec.setWidth_eq_extractLsb' hn, toW, BitVec.setWidth_setWidth_of_le _ hn, BitVec.setWidth_eq]

/-- The 8-bit narrowing leaves the low byte as a number (42_sign_widen_narrow.md R93, R98). -/
theorem narrowTo8_eq_ofNat (c : Cell24) : narrowTo8 c = BitVec.ofNat 128 c.b0.toNat :=
  (BitVec.ofNat_toNat 128 c.b0).symm

/-- The 16-bit narrowing leaves the low two bytes as a number (42_sign_widen_narrow.md R94, R99). -/
theorem narrowTo16_eq_ofNat (c : Cell24) : narrowTo16 c = BitVec.ofNat 128 (c.b0.toNat + 256 * c.b1.toNat) := by
  have h0 := c.b0.isLt
  have h1 := c.b1.isLt
  have hcut : (u24 c).toNat % 256 ^ 2 = c.b0.toNat + 256 * c.b1.toNat := by
    rw [u24_toNat]
    omega
  rw [← hcut, ← narrowTo16_toNat, BitVec.ofNat_toNat, BitVec.setWidth_eq]

/-- The unsigned widening leaves the zero extension of the cell, whatever its width (42_sign_widen_narrow.md R100 to
R102). -/
theorem zeroWiden_eq_setWidth {n : Nat} (hn : 24 ≤ n) (c : Cell24) : zeroWiden n c = (u24 c).setWidth 128 := by
  rw [zeroWiden, toW, BitVec.setWidth_setWidth (by omega)]

/-- The unsigned widenings leave the same `W`. -/
theorem zeroWiden_same_result {m n : Nat} (hm : 24 ≤ m) (hn : 24 ≤ n) (c : Cell24) : zeroWiden m c = zeroWiden n c :=
  (zeroWiden_eq_setWidth hm c).trans (zeroWiden_eq_setWidth hn c).symm

/-- The unsigned widening leaves the raw number (42_sign_widen_narrow.md R100 to R102). -/
theorem zeroWiden_eq_ofNat {n : Nat} (hn : 24 ≤ n) (c : Cell24) :
    zeroWiden n c = BitVec.ofNat 128 (u24 c).toNat := by
  rw [zeroWiden_eq_setWidth hn, BitVec.ofNat_toNat]

/-- The widening to 128 bits fills `W` with the sign extension. -/
theorem signWiden_128 (c : Cell24) : signWiden 128 c = (u24 c).signExtend 128 := BitVec.setWidth_eq _

/-- The low `n` bits of a signed widening to `n` bits read as the value. -/
theorem toInt_signWiden {n : Nat} (hlo : 24 ≤ n) (hhi : n ≤ 128) (c : Cell24) :
    ((signWiden n c).extractLsb' 0 n).toInt = s24 c := by
  rw [signWiden, toW_extractLsb' hhi, toInt_signExtend_u24 hlo]

/-- The signed widening to `n` bits leaves the value modulo `2^n` (42_sign_widen_narrow.md R95 to R97). -/
theorem signWiden_eq_ofInt (n : Nat) (c : Cell24) : signWiden n c = BitVec.ofInt 128 (s24 c % 2 ^ n) := by
  have hnat : (((u24 c).signExtend n).toNat : Int) = s24 c % 2 ^ n := by
    rw [← ofInt_s24, BitVec.toNat_ofInt, Int.toNat_of_nonneg (Int.emod_nonneg _ (by positivity))]
    norm_cast
  rw [← hnat, BitVec.ofInt_natCast, BitVec.ofNat_toNat, signWiden, toW]

/-- A number of `n + 1` bits read as signed: its top bit counts negative. -/
theorem toInt_ofNat_succ {n x : Nat} (hx : x < 2 ^ (n + 1)) :
    (BitVec.ofNat (n + 1) x).toInt = (x : Int) - if 2 ^ n ≤ x then 2 ^ (n + 1) else 0 := by
  rw [pow_succ] at hx
  rw [BitVec.toInt_eq_toNat_cond, BitVec.toNat_ofNat, pow_succ, Nat.mod_eq_of_lt hx, pow_succ]
  push_cast
  split <;> split <;> omega

/-- The low bits of a result that is the raw number cut to `m` bytes are those of the cell. -/
theorem extractLsb'_of_cut {x : Wide} {c : Cell24} {m : Nat} (hx : x.toNat = (u24 c).toNat % 256 ^ m) :
    x.extractLsb' 0 (8 * m) = (u24 c).extractLsb' 0 (8 * m) := by
  apply BitVec.eq_of_toNat_eq
  have hpow : 2 ^ (8 * m) = 256 ^ m := by rw [pow_mul]; norm_num
  simp [BitVec.extractLsb'_toNat, hx, hpow]

/-- The bits of a signed widening below its width: the cell's, and from bit 24 on the sign (42_sign_widen_narrow.md
R92). -/
theorem getLsbD_signWiden {n j : Nat} (hj : j < n) (hw : j < 128) (c : Cell24) :
    (signWiden n c).getLsbD j = if j < 24 then (u24 c).getLsbD j else isNegative c := by
  rw [signWiden, toW, BitVec.getLsbD_setWidth, BitVec.getLsbD_signExtend, isNegative_eq_msb]
  simp [hj, hw]

/-- The low bits of a signed widening, up to the cell's 24, are those of the cell. -/
theorem extractLsb'_signWiden {m n : Nat} (hm : m ≤ 24) (hn : 24 ≤ n) (c : Cell24) :
    (signWiden n c).extractLsb' 0 m = (u24 c).extractLsb' 0 m := by
  apply BitVec.eq_of_getLsbD_eq
  intro j hj
  have hcell : j < 24 := by omega
  rw [BitVec.getLsbD_extractLsb', BitVec.getLsbD_extractLsb', Nat.zero_add,
    getLsbD_signWiden (by omega) (by omega), if_pos hcell]

/-- Sign extension to 32 bits adds `0xFF000000` to the zero extension of a negative cell, and nothing otherwise
(42_sign_widen_narrow.md R103). -/
theorem signExtend32_eq_add (c : Cell24) :
    (u24 c).signExtend 32 = (u24 c).setWidth 32 + if (u24 c).getLsbD 23 then 0xFF000000 else 0 := by
  have hlt := (u24 c).isLt
  apply BitVec.eq_of_toNat_eq
  rw [BitVec.toNat_signExtend, BitVec.msb_eq_getLsbD_last, BitVec.toNat_add,
    BitVec.toNat_setWidth_of_le (by decide)]
  cases (u24 c).getLsbD (24 - 1) with
  | true =>
    show (u24 c).toNat + (2 ^ 32 - 2 ^ 24) = ((u24 c).toNat + 0xFF000000) % 2 ^ 32
    omega
  | false =>
    show (u24 c).toNat = (u24 c).toNat % 2 ^ 32
    omega

/-- A lane inside a cut of the cell is the cell's byte. -/
theorem wLane_cut_low {x : Wide} {c : Cell24} {m : Nat} (hx : x.toNat = (u24 c).toNat % 256 ^ m) {k : Fin 16}
    (hk : k.val < m) : wLane x k = (u24 c).extractLsb' (8 * k.val) 8 := by
  apply BitVec.eq_of_toNat_eq
  rw [wLane_toNat_of_mod hx, if_pos hk, BitVec.extractLsb'_toNat, Nat.shiftRight_eq_div_pow, pow_mul]
  norm_num

/-- A lane above a cut of the cell is zero. -/
theorem wLane_cut_high {x : Wide} {c : Cell24} {m : Nat} (hx : x.toNat = (u24 c).toNat % 256 ^ m) {k : Fin 16}
    (hk : m ≤ k.val) : wLane x k = 0 := by
  apply BitVec.eq_of_toNat_eq
  rw [wLane_toNat_of_mod hx, if_neg (Nat.not_lt.mpr hk)]
  rfl

/-- The three bytes of a cell's 24-bit vector are the cell's (00_scope.md R7). -/
theorem u24_byte0 (c : Cell24) : (u24 c).extractLsb' 0 8 = c.b0 := congrArg Cell24.b0 (cellOf_u24 c)
theorem u24_byte1 (c : Cell24) : (u24 c).extractLsb' 8 8 = c.b1 := congrArg Cell24.b1 (cellOf_u24 c)
theorem u24_byte2 (c : Cell24) : (u24 c).extractLsb' 16 8 = c.b2 := congrArg Cell24.b2 (cellOf_u24 c)

/-- Above the cell's bytes a signed widening to `m` bytes has the sign byte up to its width and zeros from there on. -/
theorem wLane_signWiden_sign (m : Nat) (c : Cell24) {k : Fin 16} (hk : 3 ≤ k.val) :
    wLane (signWiden (8 * m) c) k = if k.val < m then if c.b2.getLsbD 7 then 0xFF else 0x00 else 0x00 := by
  rw [wLane_signWiden_high m c hk, ← isNegative_eq_msb, ← signByte, ← isNegative]
  by_cases hm : k.val < m <;> simp [hm, signByte]

theorem writesWide_of_exec {i : Instr} {s : State} {x y : Wide} (h : exec i s = .next (s.setW x)) (hx : x = y) :
    WritesWide i s y :=
  ⟨_, h, hx, onlyWide_setW s x⟩

/-- Settles O27: the one write of `ISNEG` is the sign test of the cell. -/
theorem isnegTestsTheSign : Obligations.IsnegTestsTheSign := fun s ra hf =>
  ⟨encodes_of_ra (by simp [opcodeOf]) rfl, _, exec_isneg ra hf, rfl, isNegative_iff _, onlyNeg_setNeg s _⟩

/-- Settles O28: the narrowings are cuts of the cell, and value and raw number agree modulo `2^8` and `2^16`. -/
theorem narrowingKeepsLowBytes : Obligations.NarrowingKeepsLowBytes := by
  intro s ra hf b0 b1
  have hb0 : b0 < 256 := (s.getV ra).b0.isLt
  have hb1 : b1 < 256 := (s.getV ra).b1.isLt
  have hraw : (u24 (s.getV ra)).toNat = b0 + 256 * b1 + 65536 * (s.getV ra).b2.toNat := u24_toNat _
  refine ⟨⟨encodes_of_ra (by simp [opcodeOf]) rfl, writesWide_of_exec (exec_asi8 ra hf) (narrowTo8_eq_ofNat _)⟩,
    ⟨encodes_of_ra (by simp [opcodeOf]) rfl, writesWide_of_exec (exec_asi16 ra hf) (narrowTo16_eq_ofNat _)⟩,
    ⟨encodes_of_ra (by simp [opcodeOf]) rfl, writesWide_of_exec (exec_asu8 ra hf) (narrowTo8_eq_ofNat _)⟩,
    ⟨encodes_of_ra (by simp [opcodeOf]) rfl, writesWide_of_exec (exec_asu16 ra hf) (narrowTo16_eq_ofNat _)⟩,
    ?signed8, ?signed16⟩
  case signed8 =>
    rw [toInt_ofNat_succ hb0, s24_emod _ (by decide), hraw]
    split <;> split <;> omega
  case signed16 =>
    rw [toInt_ofNat_succ (by omega), s24_emod _ (by decide), hraw]
    split <;> split <;> omega

/-- Settles O29: the widening is the sign extension, which is the value in the wider format. -/
theorem signedWideningKeepsTheValue : Obligations.SignedWideningKeepsTheValue := by
  intro s ra hf a
  exact ⟨⟨encodes_of_ra (by simp [opcodeOf]) rfl, writesWide_of_exec (exec_asi32 ra hf) (signWiden_eq_ofInt 32 _),
      toInt_signExtend_u24 (by decide) _⟩,
    ⟨encodes_of_ra (by simp [opcodeOf]) rfl, writesWide_of_exec (exec_asi64 ra hf) (signWiden_eq_ofInt 64 _),
      toInt_signExtend_u24 (by decide) _⟩,
    ⟨encodes_of_ra (by simp [opcodeOf]) rfl, writesWide_of_exec (exec_asi128 ra hf) (signWiden_128 _),
      toInt_signExtend_u24 (by decide) _⟩⟩

/-- Settles O30: each unsigned widening leaves the raw number. -/
theorem unsignedWideningKeepsTheBits : Obligations.UnsignedWideningKeepsTheBits := by
  intro s ra hf
  simp only [← u24_toNat]
  exact ⟨⟨encodes_of_ra (by simp [opcodeOf]) rfl,
      writesWide_of_exec (exec_asu32 ra hf) (zeroWiden_eq_ofNat (by decide) _)⟩,
    ⟨encodes_of_ra (by simp [opcodeOf]) rfl,
      writesWide_of_exec (exec_asu64 ra hf) (zeroWiden_eq_ofNat (by decide) _)⟩,
    ⟨encodes_of_ra (by simp [opcodeOf]) rfl,
      writesWide_of_exec (exec_asu128 ra hf) (zeroWiden_eq_ofNat (by decide) _)⟩,
    u24_toNat_eq_s24 _⟩

/-- Settles O31: a signed widening has the cell's bytes and then its sign byte, every other result is the raw number cut
to its low bytes. -/
theorem byteLanesOfWidenedResults : Obligations.ByteLanesOfWidenedResults := by
  intro s ra hf c sign
  have hcut := exec_cutsOfTheRawNumber ra hf
  refine ⟨fun p hp => ?signed, fun i hi => ?unsigned, fun i hi => ?two, fun i hi => ?one⟩
  case signed =>
    obtain ⟨hexec, hwidth⟩ := exec_signedWidenings ra hf p hp
    have hlow {k : Fin 16} (hk : k.val < 3) := wLane_signWiden_low hwidth c hk
    exact ⟨_, hexec, (hlow (by decide)).trans (u24_byte0 c), (hlow (by decide)).trans (u24_byte1 c),
      (hlow (by decide)).trans (u24_byte2 c), fun k hk => wLane_signWiden_sign p.2 c hk⟩
  case unsigned =>
    obtain ⟨x, hexec, (hx : x.toNat = (u24 c).toNat % 256 ^ 3)⟩ := hcut (i, 3) (by simpa using hi)
    exact ⟨_, hexec, (wLane_cut_low hx (by decide)).trans (u24_byte0 c),
      (wLane_cut_low hx (by decide)).trans (u24_byte1 c), (wLane_cut_low hx (by decide)).trans (u24_byte2 c),
      fun k hk => wLane_cut_high hx hk⟩
  case two =>
    obtain ⟨x, hexec, (hx : x.toNat = (u24 c).toNat % 256 ^ 2)⟩ := hcut (i, 2) (by simpa using hi)
    exact ⟨_, hexec, (wLane_cut_low hx (by decide)).trans (u24_byte0 c),
      (wLane_cut_low hx (by decide)).trans (u24_byte1 c), fun k hk => wLane_cut_high hx hk⟩
  case one =>
    obtain ⟨x, hexec, (hx : x.toNat = (u24 c).toNat % 256 ^ 1)⟩ := hcut (i, 1) (by simpa using hi)
    exact ⟨_, hexec, (wLane_cut_low hx (by decide)).trans (u24_byte0 c), fun k hk => wLane_cut_high hx hk⟩

/-- Settles O33: the signed results are sign extensions of one 24-bit vector, the unsigned ones its raw number, the
narrow ones its low bits. -/
theorem wideningLaws : Obligations.WideningLaws := by
  intro s ra hf
  refine ⟨_, _, _, _, _, _, _, _, _, _, _, exec_asi8 ra hf, exec_asi16 ra hf, exec_asi32 ra hf, exec_asi64 ra hf,
    exec_asi128 ra hf, exec_asu8 ra hf, exec_asu16 ra hf, exec_asu32 ra hf, exec_asu64 ra hf, exec_asu128 ra hf,
    exec_isneg ra hf, ?value32, ?value64, ?value128, ?raw, ?raw64, ?raw128, ?difference, rfl, ?low16, rfl, ?low8,
    ?sign32, isNegative_eq_getLsbD _⟩
  case value32 => exact toInt_signWiden (by decide) (by decide) _
  case value64 => exact toInt_signWiden (by decide) (by decide) _
  case value128 => exact (congrArg BitVec.toInt (signWiden_128 _)).trans (toInt_signExtend_u24 (by decide) _)
  case raw =>
    exact (congrArg BitVec.toNat (zeroWiden_eq_setWidth (by decide) _)).trans (BitVec.toNat_setWidth_of_le (by decide))
  case raw64 => exact zeroWiden_same_result (m := 64) (n := 32) (by decide) (by decide) _
  case raw128 => exact zeroWiden_same_result (m := 128) (n := 32) (by decide) (by decide) _
  case difference =>
    simp only [State.setW_w, signWiden, zeroWiden, toW_extractLsb' (n := 32) (by decide)]
    exact signExtend32_eq_add _
  case low16 =>
    exact (extractLsb'_of_cut (narrowTo16_toNat _)).trans (extractLsb'_signWiden (by decide) (by decide) _).symm
  case low8 =>
    exact (extractLsb'_of_cut (narrowTo8_toNat _)).trans (extractLsb'_signWiden (by decide) (by decide) _).symm
  case sign32 => exact (getLsbD_signWiden (n := 32) (j := 31) (by decide) (by decide) _).symm

end Sys2Proof.Machine
end

section
/-! PROOFS. Construction from the native integers: each source's cell as `wrap24` of its value, and the round trips
through `W` (43_construct.md R110 to R123). -/

namespace Sys2Proof.Machine
open Sys2Proof Sys2Proof.Safety

/-- Each bit of the sign byte is the sign (43_construct.md R112). -/
theorem getLsbD_signByte (b : Bool) {j : Nat} (hj : j < 8) : (signByte b).getLsbD j = b := by
  have hall : ∀ b, ∀ j < 8, (signByte b).getLsbD j = b := by decide
  exact hall b j hj

section Bytes
variable {n k : Nat} (x : BitVec n)

/-- A byte of a sign extension below the source's width is the source's. -/
theorem byte_signExtend_below (hn : k + 8 ≤ n) (hk : k + 8 ≤ 24) :
    (x.signExtend 24).extractLsb' k 8 = x.extractLsb' k 8 := by
  apply BitVec.eq_of_getLsbD_eq
  intro j hj
  have hsource : k + j < n := by omega
  have hcell : k + j < 24 := by omega
  rw [BitVec.getLsbD_extractLsb', BitVec.getLsbD_extractLsb', BitVec.getLsbD_signExtend, if_pos hsource]
  simp [hcell]

/-- A byte of a sign extension above the source's width is the sign byte. -/
theorem byte_signExtend_above (hn : n ≤ k) (hk : k + 8 ≤ 24) :
    (x.signExtend 24).extractLsb' k 8 = signByte x.msb := by
  apply BitVec.eq_of_getLsbD_eq
  intro j hj
  have hsource : ¬ k + j < n := by omega
  have hcell : k + j < 24 := by omega
  rw [BitVec.getLsbD_extractLsb', BitVec.getLsbD_signExtend, if_neg hsource, getLsbD_signByte _ hj]
  simp [hj, hcell]

/-- A byte above the source's width is zero. -/
theorem byte_above (hn : n ≤ k) : x.extractLsb' k 8 = 0 := by
  apply BitVec.eq_of_getLsbD_eq
  intro j hj
  have hsource : n ≤ k + j := by omega
  simp [BitVec.getLsbD_of_ge x _ hsource]

/-- The cell of a signed value is its sign extension. -/
theorem wrap24_toInt : wrap24 x.toInt = cellOf (x.signExtend 24) := rfl

/-- The cell of an unsigned value is its zero extension. -/
theorem wrap24_toNat : wrap24 x.toNat = cellOf (x.setWidth 24) := by
  rw [wrap24, BitVec.ofInt_natCast, BitVec.ofNat_toNat]

/-- The low three bytes, zero where the source ends, are the unsigned value modulo `2^24` (43_construct.md R119 to R121,
R123). -/
theorem fromLow24_eq_wrap24_toNat : fromLow24 x = wrap24 x.toNat := by
  rw [fromLow24_eq_cellOf, wrap24_toNat]

/-- The low three bytes are the signed value modulo `2^24` (43_construct.md R114 to R116). -/
theorem fromLow24_eq_wrap24_toInt (hn : 24 ≤ n) : fromLow24 x = wrap24 x.toInt := by
  rw [fromLow24_eq_cellOf, wrap24, ofInt_toInt_low x hn]

end Bytes

/-- The byte and two sign bytes are the signed value (43_construct.md R112). -/
theorem fromSigned8_eq_wrap24 (x : BitVec 8) : fromSigned8 x = wrap24 x.toInt := by
  rw [wrap24_toInt, cellOf, byte_signExtend_below x (by decide) (by decide),
    byte_signExtend_above x (by decide) (by decide), byte_signExtend_above x (by decide) (by decide),
    BitVec.extractLsb'_eq_self, BitVec.msb_eq_getLsbD_last, fromSigned8]

/-- The two bytes and a sign byte are the signed value (43_construct.md R113). -/
theorem fromSigned16_eq_wrap24 (x : BitVec 16) : fromSigned16 x = wrap24 x.toInt := by
  rw [wrap24_toInt, cellOf, byte_signExtend_below x (by decide) (by decide),
    byte_signExtend_below x (by decide) (by decide), byte_signExtend_above x (by decide) (by decide),
    BitVec.msb_eq_getLsbD_last, fromSigned16]

/-- The byte and two zero bytes are the unsigned value (43_construct.md R117). -/
theorem fromUnsigned8_eq_wrap24 (x : BitVec 8) : fromUnsigned8 x = wrap24 x.toNat := by
  rw [← fromLow24_eq_wrap24_toNat, fromLow24, byte_above (k := 8) x (by decide),
    byte_above (k := 16) x (by decide), BitVec.extractLsb'_eq_self]
  rfl

/-- The two bytes and a zero byte are the unsigned value (43_construct.md R118). -/
theorem fromUnsigned16_eq_wrap24 (x : BitVec 16) : fromUnsigned16 x = wrap24 x.toNat := by
  rw [← fromLow24_eq_wrap24_toNat, fromLow24, byte_above (k := 16) x (by decide)]
  rfl

/-- A cell holds every value in its range (00_scope.md R7). -/
theorem s24_wrap24 {z : Int} (hlo : -8388608 ≤ z) (hhi : z ≤ 8388607) : s24 (wrap24 z) = z := by
  rw [s24, wrap24, u24_cellOf, BitVec.toInt_ofInt, Int.bmod_eq_of_le (by omega) (by omega)]

/-- A cell holds every value of a signed format of at most 24 bits. -/
theorem s24_wrap24_toInt {n : Nat} (hn : n ≤ 24) (x : BitVec n) : s24 (wrap24 x.toInt) = x.toInt := by
  rw [wrap24_toInt, s24, u24_cellOf, BitVec.toInt_signExtend_of_le hn]

/-- A cell holds every value of an unsigned format of less than 24 bits. -/
theorem s24_wrap24_toNat {n : Nat} (hn : n < 24) (x : BitVec n) : s24 (wrap24 x.toNat) = x.toNat := by
  have hlt : x.toNat < 2 ^ 23 := x.isLt.trans_le (Nat.pow_le_pow_right (by decide) (by omega))
  exact s24_wrap24 (by omega) (by omega)

/-- The low `n + 1` bits of a cell, read as signed, give the cell back exactly when its value is in their signed range
(43_construct.md R122). -/
theorem wrap24_low_toInt_eq_iff {n : Nat} (hn : n < 24) (c : Cell24) :
    wrap24 ((u24 c).setWidth (n + 1)).toInt = c ↔ -2 ^ n ≤ s24 c ∧ s24 c ≤ 2 ^ n - 1 := by
  rw [← ofInt_toInt_low (u24 c) hn, ← s24]
  constructor
  · intro hback
    have hval := congrArg s24 hback
    rw [s24_wrap24_toInt hn] at hval
    have hlo := BitVec.le_toInt (BitVec.ofInt (n + 1) (s24 c))
    have hhi := BitVec.toInt_lt (x := BitVec.ofInt (n + 1) (s24 c))
    rw [hval, Nat.add_sub_cancel] at hlo hhi
    exact ⟨hlo, Int.le_sub_one_of_lt hhi⟩
  · rintro ⟨hlo, hhi⟩
    rw [BitVec.toInt_ofInt_eq_self (Nat.succ_pos n) hlo (Int.lt_of_le_sub_one hhi), wrap24_s24]

/-- The low `n` bits of a cell, read as unsigned, give the cell back exactly when its value is in their unsigned range
(43_construct.md R122). -/
theorem wrap24_low_toNat_eq_iff {n : Nat} (hn : n < 24) (c : Cell24) :
    wrap24 ((u24 c).setWidth n).toNat = c ↔ 0 ≤ s24 c ∧ s24 c ≤ 2 ^ n - 1 := by
  have hlow : (((u24 c).setWidth n).toNat : Int) = s24 c % 2 ^ n := by
    rw [s24_emod c (pow_dvd_pow 2 hn.le), BitVec.toNat_setWidth]
    norm_cast
  have hpos : (0 : Int) < 2 ^ n := by positivity
  constructor
  · intro hback
    have hval := congrArg s24 hback
    rw [s24_wrap24_toNat hn, hlow] at hval
    rw [← hval]
    exact ⟨Int.emod_nonneg _ hpos.ne', Int.le_sub_one_of_lt (Int.emod_lt_of_pos _ hpos)⟩
  · rintro ⟨hlo, hhi⟩
    rw [hlow, Int.emod_eq_of_lt hlo (Int.lt_of_le_sub_one hhi), wrap24_s24]

/-- The low bits of `W` after a narrowing are those of the cell. -/
theorem lowW_narrowTo8 (c : Cell24) : lowW 8 (narrowTo8 c) = (u24 c).setWidth 8 :=
  (extractLsb'_of_cut (narrowTo8_toNat c)).trans (BitVec.setWidth_eq_extractLsb' (by decide)).symm

theorem lowW_narrowTo16 (c : Cell24) : lowW 16 (narrowTo16 c) = (u24 c).setWidth 16 :=
  (extractLsb'_of_cut (narrowTo16_toNat c)).trans (BitVec.setWidth_eq_extractLsb' (by decide)).symm

/-- Constructing back from a narrowing gives the cell of the low bits' value in the source's signedness (43_construct.md
R122). -/
theorem fromSigned8_narrowTo8 (c : Cell24) :
    fromSigned8 (lowW 8 (narrowTo8 c)) = wrap24 ((u24 c).setWidth 8).toInt := by
  rw [fromSigned8_eq_wrap24, lowW_narrowTo8]

theorem fromSigned16_narrowTo16 (c : Cell24) :
    fromSigned16 (lowW 16 (narrowTo16 c)) = wrap24 ((u24 c).setWidth 16).toInt := by
  rw [fromSigned16_eq_wrap24, lowW_narrowTo16]

theorem fromUnsigned8_narrowTo8 (c : Cell24) :
    fromUnsigned8 (lowW 8 (narrowTo8 c)) = wrap24 ((u24 c).setWidth 8).toNat := by
  rw [fromUnsigned8_eq_wrap24, lowW_narrowTo8]

theorem fromUnsigned16_narrowTo16 (c : Cell24) :
    fromUnsigned16 (lowW 16 (narrowTo16 c)) = wrap24 ((u24 c).setWidth 16).toNat := by
  rw [fromUnsigned16_eq_wrap24, lowW_narrowTo16]

/-- Constructing back from a signed widening gives the cell (43_construct.md R122). -/
theorem fromLow24_signWiden {n : Nat} (hlo : 24 ≤ n) (hhi : n ≤ 128) (c : Cell24) :
    fromLow24 (lowW n (signWiden n c)) = c := by
  rw [fromLow24_eq_wrap24_toInt _ hlo, lowW, toInt_signWiden hlo hhi, wrap24_s24]

/-- Constructing back from an unsigned widening gives the cell (43_construct.md R122). -/
theorem fromLow24_zeroWiden {n : Nat} (hlo : 24 ≤ n) (hhi : n ≤ 128) (c : Cell24) :
    fromLow24 (lowW n (zeroWiden n c)) = c := by
  rw [fromLow24_eq_cellOf, lowW, zeroWiden, toW_extractLsb' hhi, BitVec.setWidth_setWidth_of_le _ hlo,
    BitVec.setWidth_eq, cellOf_u24]

/-- The whole of `W` is its low 128 bits. -/
theorem lowW_128 (w : Wide) : lowW 128 w = w := BitVec.extractLsb'_eq_self

/-- A command that writes the cell `c` writes every cell equal to `c`. -/
theorem writesCell_of_exec_eq {i : Instr} {s : State} {rd : VIdx} {c d : Cell24}
    (h : exec i s = .next (s.setV rd c)) (hc : c = d) : WritesCell i s rd d :=
  writesCell_of_exec (h.trans (by rw [hc]))

/-- A write of `W` and then a construction leave in the cell what the construction makes of that `W`. -/
theorem execSeq_wide_construct {i j : Instr} {s : State} {x : Wide} {rd : VIdx} {c d : Cell24}
    (hwide : exec i s = .next (s.setW x)) (hconstruct : exec j (s.setW x) = .next ((s.setW x).setV rd c))
    (hc : c = d) : ∃ t, execSeq i j s = .next t ∧ t.getV rd = d :=
  ⟨_, (execSeq_of_next hwide j).trans hconstruct, (State.getV_setV_same _ rd c).trans hc⟩

/-- Settles O34: each cell is `wrap24` of the source's value, and a cell holds all values of the narrow types. -/
theorem constructionFromNarrowTypes : Obligations.ConstructionFromNarrowTypes := by
  intro s rd hf x8 x16
  exact ⟨⟨encodes_of_rd (by simp [opcodeOf]) rfl,
      writesCell_of_exec_eq (exec_fromi8 rd hf) (fromSigned8_eq_wrap24 x8), s24_wrap24_toInt (by decide) x8⟩,
    ⟨encodes_of_rd (by simp [opcodeOf]) rfl,
      writesCell_of_exec_eq (exec_fromi16 rd hf) (fromSigned16_eq_wrap24 x16), s24_wrap24_toInt (by decide) x16⟩,
    ⟨encodes_of_rd (by simp [opcodeOf]) rfl,
      writesCell_of_exec_eq (exec_fromu8 rd hf) (fromUnsigned8_eq_wrap24 x8), s24_wrap24_toNat (by decide) x8⟩,
    ⟨encodes_of_rd (by simp [opcodeOf]) rfl,
      writesCell_of_exec_eq (exec_fromu16 rd hf) (fromUnsigned16_eq_wrap24 x16), s24_wrap24_toNat (by decide) x16⟩⟩

/-- Settles O35: the low three bytes are the source modulo `2^24` in either signedness. -/
theorem constructionFromWideTypes : Obligations.ConstructionFromWideTypes := by
  intro s rd hf
  refine ⟨⟨?_, writesCell_of_exec_eq (exec_fromi32 rd hf) (fromLow24_eq_wrap24_toInt _ (by decide))⟩,
    ⟨?_, writesCell_of_exec_eq (exec_fromi64 rd hf) (fromLow24_eq_wrap24_toInt _ (by decide))⟩,
    ⟨?_, writesCell_of_exec_eq (exec_fromi128 rd hf) ?signed128⟩,
    ⟨?_, writesCell_of_exec_eq (exec_fromu32 rd hf) (fromLow24_eq_wrap24_toNat _)⟩,
    ⟨?_, writesCell_of_exec_eq (exec_fromu64 rd hf) (fromLow24_eq_wrap24_toNat _)⟩,
    ⟨?_, writesCell_of_exec_eq (exec_fromu128 rd hf) ?unsigned128⟩,
    ⟨?_, writesCell_of_exec_eq (exec_fromu24 rd hf) (fromLow24_eq_wrap24_toNat _)⟩⟩
  case signed128 => rw [lowW_128, fromLow24_eq_wrap24_toInt _ (by decide)]
  case unsigned128 => rw [lowW_128, fromLow24_eq_wrap24_toNat]
  all_goals exact encodes_of_rd (by simp [opcodeOf]) rfl

/-- Settles O36: `wrap24` is reduction modulo `2^24`; a wide round trip is `wrap24` of the cell's value or raw number, a
narrow one of its low bits. -/
theorem constructionLaws : Obligations.ConstructionLaws := by
  refine ⟨wrap24_eq_iff, fun s ra rd hf => ⟨?wide, ?signed8, ?signed16, ?unsigned8, ?unsigned16⟩⟩
  case wide =>
    simp only [List.forall_mem_cons]
    exact ⟨execSeq_wide_construct (exec_asi32 ra hf) (exec_fromi32 rd hf)
        (fromLow24_signWiden (by decide) (by decide) _),
      execSeq_wide_construct (exec_asi64 ra hf) (exec_fromi64 rd hf)
        (fromLow24_signWiden (by decide) (by decide) _),
      execSeq_wide_construct (exec_asi128 ra hf) (exec_fromi128 rd hf)
        (fromLow24_signWiden (by decide) (by decide) _),
      execSeq_wide_construct (exec_asu32 ra hf) (exec_fromu32 rd hf)
        (fromLow24_zeroWiden (by decide) (by decide) _),
      execSeq_wide_construct (exec_asu64 ra hf) (exec_fromu64 rd hf)
        (fromLow24_zeroWiden (by decide) (by decide) _),
      execSeq_wide_construct (exec_asu128 ra hf) (exec_fromu128 rd hf)
        (fromLow24_zeroWiden (by decide) (by decide) _),
      List.forall_mem_nil _⟩
  case signed8 =>
    obtain ⟨t, hexec, hcell⟩ :=
      execSeq_wide_construct (exec_asi8 ra hf) (exec_fromi8 rd hf) (fromSigned8_narrowTo8 _)
    have hbyte : (u24 (s.getV ra)).setWidth 8 = (s.getV ra).b0 :=
      (BitVec.setWidth_eq_extractLsb' (by decide)).trans (u24_byte0 _)
    refine ⟨t, hexec, ?_, ?_⟩
    · rw [hcell, s24_wrap24_toInt (by decide), hbyte]
    · rw [hcell]
      exact wrap24_low_toInt_eq_iff (n := 7) (by decide) _
  case signed16 =>
    obtain ⟨t, hexec, hcell⟩ :=
      execSeq_wide_construct (exec_asi16 ra hf) (exec_fromi16 rd hf) (fromSigned16_narrowTo16 _)
    refine ⟨t, hexec, ?_⟩
    rw [hcell]
    exact wrap24_low_toInt_eq_iff (n := 15) (by decide) _
  case unsigned8 =>
    obtain ⟨t, hexec, hcell⟩ :=
      execSeq_wide_construct (exec_asu8 ra hf) (exec_fromu8 rd hf) (fromUnsigned8_narrowTo8 _)
    refine ⟨t, hexec, ?_⟩
    rw [hcell]
    exact wrap24_low_toNat_eq_iff (n := 8) (by decide) _
  case unsigned16 =>
    obtain ⟨t, hexec, hcell⟩ :=
      execSeq_wide_construct (exec_asu16 ra hf) (exec_fromu16 rd hf) (fromUnsigned16_narrowTo16 _)
    refine ⟨t, hexec, ?_⟩
    rw [hcell]
    exact wrap24_low_toNat_eq_iff (n := 16) (by decide) _

end Sys2Proof.Machine
end

section
/-! PROOFS. Floating point: the three fields of a float's bits, the exact encoding of an integer by its exponent, and
the value it spells (44_float.md R131 to R137). Both formats are the one format of `frac` fraction bits, `expBits`
exponent bits and a sign bit above them. -/

namespace Sys2Proof.Machine
open Sys2Proof Sys2Proof.Safety

/-- The bits of a float from its sign, exponent and fraction fields (44_float.md R133). -/
def packFloat (frac expBits sign e f : Nat) : Nat := sign * 2 ^ (frac + expBits) + e * 2 ^ frac + f

/-- The sign bit of an integer (44_float.md R133). -/
def signBit (n : Int) : Nat := if n < 0 then 1 else 0

/-- The fraction field of the magnitude `m` with exponent `e` (44_float.md R133). -/
def fractionField (frac m e : Nat) : Nat := (m - 2 ^ e) * 2 ^ (frac - e)

/-- The value of a pattern that is zero or a normal number, for both formats (44_float.md R133). -/
def floatValue (frac expBits : Nat) (bias : Int) {n : Nat} (x : BitVec n) : ℚ :=
  let e := (x.extractLsb' frac expBits).toNat
  let f := (x.extractLsb' 0 frac).toNat
  if e = 0 ∧ f = 0 then 0
  else (if x.getLsbD (frac + expBits) then -1 else 1) * (2 : ℚ) ^ ((e : Int) - bias) * (1 + (f : ℚ) / 2 ^ frac)

theorem f32Value_eq_floatValue (x : BitVec 32) : f32Value x = floatValue 23 8 127 x := rfl
theorem f64Value_eq_floatValue (x : BitVec 64) : f64Value x = floatValue 52 11 1023 x := rfl

section Fields
variable {frac expBits sign e f : Nat}

theorem packFloat_mod (hf : f < 2 ^ frac) : packFloat frac expBits sign e f % 2 ^ frac = f := by
  rw [packFloat, pow_add, mul_left_comm, Nat.add_assoc, Nat.mul_add_mod, Nat.mul_add_mod_self_right,
    Nat.mod_eq_of_lt hf]

theorem packFloat_div (hf : f < 2 ^ frac) : packFloat frac expBits sign e f / 2 ^ frac = 2 ^ expBits * sign + e := by
  have hsplit : packFloat frac expBits sign e f = 2 ^ frac * (2 ^ expBits * sign + e) + f := by
    rw [packFloat, pow_add]; ring
  rw [hsplit, Nat.mul_add_div (by positivity), Nat.div_eq_of_lt hf, Nat.add_zero]

theorem packFloat_div_sign (he : e < 2 ^ expBits) (hf : f < 2 ^ frac) :
    packFloat frac expBits sign e f / 2 ^ (frac + expBits) = sign := by
  rw [pow_add, ← Nat.div_div_eq_div_mul, packFloat_div hf, Nat.mul_add_div (by positivity), Nat.div_eq_of_lt he,
    Nat.add_zero]

/-- A sign bit and fields in their widths fit below the next power of two. -/
theorem packFloat_lt (hs : sign < 2) (he : e < 2 ^ expBits) (hf : f < 2 ^ frac) :
    packFloat frac expBits sign e f < 2 ^ (frac + expBits + 1) := by
  rw [pow_succ', ← Nat.div_lt_iff_lt_mul (by positivity), packFloat_div_sign he hf]
  exact hs

/-- A normal pattern is read back field by field. -/
theorem floatValue_of_toNat {bias : Int} {n : Nat} {x : BitVec n} (hx : x.toNat = packFloat frac expBits sign e f)
    (hs : sign < 2) (he : e < 2 ^ expBits) (hf : f < 2 ^ frac) (hnormal : e ≠ 0) :
    floatValue frac expBits bias x =
      (if sign = 1 then -1 else 1) * (2 : ℚ) ^ ((e : Int) - bias) * (1 + (f : ℚ) / 2 ^ frac) := by
  have hexp : (x.extractLsb' frac expBits).toNat = e := by
    rw [BitVec.extractLsb'_toNat, hx, Nat.shiftRight_eq_div_pow, packFloat_div hf, Nat.mul_add_mod,
      Nat.mod_eq_of_lt he]
  have hfrac : (x.extractLsb' 0 frac).toNat = f := by
    rw [BitVec.extractLsb'_toNat, hx, Nat.shiftRight_zero, packFloat_mod hf]
  have hsign : x.getLsbD (frac + expBits) = decide (sign = 1) := by
    rw [BitVec.getLsbD, hx, Nat.testBit_eq_decide_div_mod_eq, packFloat_div_sign he hf, Nat.mod_eq_of_lt hs]
  simp only [floatValue, hexp, hfrac, hsign, hnormal, false_and, if_false, decide_eq_true_eq]

end Fields

section Exponent
variable {frac expBits bias e : Nat} {n : Int}

theorem signBit_lt (n : Int) : signBit n < 2 := by
  unfold signBit
  split <;> decide

/-- Sign and magnitude multiply to the integer. -/
theorem sign_mul_natAbs (n : Int) : (if signBit n = 1 then -1 else 1) * (n.natAbs : ℚ) = n := by
  rcases lt_or_ge n 0 with hneg | hpos
  · simp [signBit, hneg, abs_of_neg]
  · simp [signBit, hpos.not_gt, abs_of_nonneg hpos]

/-- No bit of the magnitude is lost and none leaves the field. -/
theorem fractionField_lt {m : Nat} (he : e ≤ frac) (hlo : 2 ^ e ≤ m) (hhi : m < 2 ^ (e + 1)) :
    fractionField frac m e < 2 ^ frac := by
  have hrest : m - 2 ^ e < 2 ^ e := by rw [pow_succ] at hhi; omega
  calc (m - 2 ^ e) * 2 ^ (frac - e) < 2 ^ e * 2 ^ (frac - e) := Nat.mul_lt_mul_of_pos_right hrest (by positivity)
    _ = 2 ^ frac := by rw [← pow_add, Nat.add_sub_cancel' he]

/-- An integer that is not zero has an exponent, at most `frac` for a magnitude below `2^(frac+1)`. -/
theorem exists_exponent (hn : n ≠ 0) (hsize : n.natAbs < 2 ^ (frac + 1)) :
    ∃ e ≤ frac, 2 ^ e ≤ n.natAbs ∧ n.natAbs < 2 ^ (e + 1) :=
  have hm : n.natAbs ≠ 0 := Int.natAbs_ne_zero.mpr hn
  ⟨n.natAbs.log2, Nat.lt_succ_iff.mp ((Nat.log2_lt hm).mpr hsize), Nat.log2_self_le hm, Nat.lt_log2_self⟩

/-- The exponent of a magnitude below `2^(frac+1)` is at most `frac`. -/
theorem exponent_le (hsize : n.natAbs < 2 ^ (frac + 1)) (hlo : 2 ^ e ≤ n.natAbs) : e ≤ frac :=
  Nat.lt_succ_iff.mp ((Nat.pow_lt_pow_iff_right (by decide)).mp (hlo.trans_lt hsize))

/-- The bits of an integer with exponent `e` are its three fields (44_float.md R133). -/
theorem floatBits_eq_packFloat (hlo : 2 ^ e ≤ n.natAbs) (hhi : n.natAbs < 2 ^ (e + 1)) :
    floatBits frac bias (frac + expBits) n =
      packFloat frac expBits (signBit n) (e + bias) (fractionField frac n.natAbs e) := by
  have hm : n.natAbs ≠ 0 := ((Nat.two_pow_pos e).trans_le hlo).ne'
  have hlog : n.natAbs.log2 = e := (Nat.log2_eq_iff hm).mpr ⟨hlo, hhi⟩
  simp only [floatBits, if_neg (Int.natAbs_ne_zero.mp hm), hlog, packFloat, signBit, fractionField]

/-- The three fields of an integer fit the format. -/
theorem toNat_floatBits (hfit : frac + bias < 2 ^ expBits) (he : e ≤ frac) (hlo : 2 ^ e ≤ n.natAbs)
    (hhi : n.natAbs < 2 ^ (e + 1)) :
    (BitVec.ofNat (frac + expBits + 1) (floatBits frac bias (frac + expBits) n)).toNat =
      packFloat frac expBits (signBit n) (e + bias) (fractionField frac n.natAbs e) := by
  rw [floatBits_eq_packFloat hlo hhi, BitVec.toNat_ofNat,
    Nat.mod_eq_of_lt (packFloat_lt (signBit_lt n) (by omega) (fractionField_lt he hlo hhi))]

/-- Power, sign and significand multiply to the integer. -/
theorem significand_mul_power (he : e ≤ frac) (hlo : 2 ^ e ≤ n.natAbs) :
    (if signBit n = 1 then -1 else 1) * (2 : ℚ) ^ (((e + bias : Nat) : Int) - bias) *
      (1 + (fractionField frac n.natAbs e : ℚ) / 2 ^ frac) = n := by
  have hpower : (2 : ℚ) ^ (((e + bias : Nat) : Int) - bias) = 2 ^ e := by simp
  have hfraction : (fractionField frac n.natAbs e : ℚ) / 2 ^ frac = (n.natAbs - 2 ^ e) / 2 ^ e := by
    rw [fractionField, ← Nat.add_sub_cancel' he, Nat.add_sub_cancel_left, pow_add]
    push_cast [hlo]
    field_simp
  rw [hpower, hfraction, mul_assoc, ← sign_mul_natAbs n]
  congr 1
  field_simp
  ring

/-- The conversion is exact in every format whose fraction and exponent fields hold the integer (44_float.md R133,
R137). -/
theorem floatValue_floatBits (hbias : 0 < bias) (hfit : frac + bias < 2 ^ expBits) (hsize : n.natAbs < 2 ^ (frac + 1)) :
    floatValue frac expBits bias (BitVec.ofNat (frac + expBits + 1) (floatBits frac bias (frac + expBits) n)) = n := by
  by_cases hn : n = 0
  · simp [hn, floatBits, floatValue]
  · obtain ⟨e, he, hlo, hhi⟩ := exists_exponent hn hsize
    rw [floatValue_of_toNat (toNat_floatBits hfit he hlo hhi) (signBit_lt n) (by omega) (fractionField_lt he hlo hhi)
      (by omega), significand_mul_power he hlo]

/-- The whole of `W` after a conversion of an integer with exponent `e`: the three fields, zeros above. -/
theorem toW_floatBits (hfit : frac + bias < 2 ^ expBits)
    (hsize : n.natAbs < 2 ^ (frac + 1)) (hlo : 2 ^ e ≤ n.natAbs) (hhi : n.natAbs < 2 ^ (e + 1)) :
    toW (frac + expBits + 1) (BitVec.ofNat _ (floatBits frac bias (frac + expBits) n)) =
      BitVec.ofNat 128 (packFloat frac expBits (signBit n) (e + bias) (fractionField frac n.natAbs e)) := by
  rw [toW, ← BitVec.ofNat_toNat, toNat_floatBits hfit (exponent_le hsize hlo) hlo hhi]

end Exponent

/-- The magnitude of a cell's value is at most `2^23`, so its exponent is at most 23 (10_state.md R21). -/
theorem natAbs_s24_lt (c : Cell24) {frac : Nat} (hfrac : 23 ≤ frac) : (s24 c).natAbs < 2 ^ (frac + 1) := by
  obtain ⟨hmin, hmax⟩ := s24_bounds c
  have hpow : 2 ^ (23 + 1) ≤ 2 ^ (frac + 1) := Nat.pow_le_pow_right (by decide) (by omega)
  omega

/-- `ASF32` and `ASF64` are exact (44_float.md R131, R132, R137). -/
theorem f32Value_f32bits (c : Cell24) : f32Value (f32bits (s24 c)) = s24 c :=
  (f32Value_eq_floatValue _).trans
    (floatValue_floatBits (bias := 127) (by decide) (by decide) (natAbs_s24_lt c (by decide)))

theorem f64Value_f64bits (c : Cell24) : f64Value (f64bits (s24 c)) = s24 c :=
  (f64Value_eq_floatValue _).trans
    (floatValue_floatBits (bias := 1023) (by decide) (by decide) (natAbs_s24_lt c (by decide)))

/-- Settles O38: zero is its own case, every other value has one exponent and the three fields fit. -/
theorem integerToFloatBits : Obligations.IntegerToFloatBits := by
  intro s ra hf a sign
  refine ⟨encodes_of_ra (by simp [opcodeOf]) rfl, encodes_of_ra (by simp [opcodeOf]) rfl, ?zero, ?nonzero⟩
  case zero =>
    intro ha
    have hw32 : toW 32 (f32bits a) = 0 := by rw [ha]; rfl
    have hw64 : toW 64 (f64bits a) = 0 := by rw [ha]; rfl
    exact ⟨writesWide_of_exec (exec_asf32 ra hf) hw32, writesWide_of_exec (exec_asf64 ra hf) hw64⟩
  case nonzero =>
    intro e hlo hhi
    exact ⟨writesWide_of_exec (exec_asf32 ra hf) (toW_floatBits (frac := 23) (expBits := 8) (bias := 127) (by decide)
        (natAbs_s24_lt _ (by decide)) hlo hhi),
      writesWide_of_exec (exec_asf64 ra hf) (toW_floatBits (frac := 52) (expBits := 11) (bias := 1023) (by decide)
        (natAbs_s24_lt _ (by decide)) hlo hhi)⟩

/-- The low bits of `W` after `ASF32` or `ASF64` spell the cell's value. -/
theorem f32Value_toW (c : Cell24) : f32Value ((toW 32 (f32bits (s24 c))).extractLsb' 0 32) = s24 c := by
  rw [toW_extractLsb' (by decide), f32Value_f32bits]

theorem f64Value_toW (c : Cell24) : f64Value ((toW 64 (f64bits (s24 c))).extractLsb' 0 64) = s24 c := by
  rw [toW_extractLsb' (by decide), f64Value_f64bits]

/-- Two cells that one reading of `W` gives back exactly are equal when their `W` is (44_float.md R137). -/
theorem cell_eq_of_value (value : Wide → ℚ) {x y : Wide} {c d : Cell24} (hx : value x = s24 c) (hy : value y = s24 d)
    (hxy : x = y) : c = d := by
  have hvalue : (s24 c : ℚ) = s24 d := by rw [← hx, hxy, hy]
  exact s24_injective (Int.cast_injective hvalue)

/-- Settles O39: the spelled value is the cell's, and a conversion that keeps the value is injective. -/
theorem integerToFloatIsExact : Obligations.IntegerToFloatIsExact := fun _ ra rb hf =>
  ⟨_, _, _, _, exec_asf32 ra hf, exec_asf64 ra hf, exec_asf32 rb hf, exec_asf64 rb hf,
    f32Value_toW _, f64Value_toW _,
    cell_eq_of_value (fun w => f32Value (w.extractLsb' 0 32)) (f32Value_toW _) (f32Value_toW _),
    cell_eq_of_value (fun w => f64Value (w.extractLsb' 0 64)) (f64Value_toW _) (f64Value_toW _)⟩

/-- The low three bytes of a cell's value as a 32-bit integer are the cell (43_construct.md R111). -/
theorem fromLow24_ofInt_s24 (c : Cell24) : fromLow24 (BitVec.ofInt 32 (s24 c)) = c := by
  rw [fromLow24_eq_wrap24_toInt _ (by decide), ofInt_s24, toInt_signExtend_u24 (by decide), wrap24_s24]

/-- A conversion that keeps integral floats, applied to an exact float of a cell's value, constructs the cell
(44_float.md R137). -/
theorem fromFloat_exact {n : Nat} {f : BitVec n → BitVec 32} {value : BitVec n → ℚ} {x : BitVec n} {c : Cell24}
    (hkeeps : ∀ (x : BitVec n) (z : Int), value x = z → -2 ^ 31 ≤ z → z < 2 ^ 31 → f x = BitVec.ofInt 32 z)
    (hx : value x = s24 c) : fromFloat f x = c := by
  obtain ⟨hmin, hmax⟩ := s24_bounds c
  rw [fromFloat, hkeeps x (s24 c) hx (by omega) (by omega), fromLow24_ofInt_s24]

/-- Settles O41: the float is exact and in range, so the conversion gives back the value and the low bytes the cell. -/
theorem floatRoundTripForEveryConversion : Obligations.FloatRoundTripForEveryConversion := by
  refine ⟨fun s ra rd f hready hf => ?_, fun s ra rd g hready hg => ?_, fun _ _ => ⟨rfl, rfl⟩⟩
  · exact ⟨_, _, exec_asf32 ra hready, lowWToCell_ready 32 _ rd hready,
      (State.getV_setV_same _ rd _).trans (fromFloat_exact hf (f32Value_toW _))⟩
  · exact ⟨_, _, exec_asf64 ra hready, lowWToCell_ready 64 _ rd hready,
      (State.getV_setV_same _ rd _).trans (fromFloat_exact hg (f64Value_toW _))⟩

/-- Settles O40: the command's equation, with the open function applied to the low bits of `W`. -/
theorem floatToCellTakesLowBytes : Obligations.FloatToCellTakesLowBytes := fun _ rd hf =>
  ⟨⟨encodes_of_rd (by simp [opcodeOf]) rfl, writesCell_of_exec (exec_fromf32 rd hf)⟩,
    ⟨encodes_of_rd (by simp [opcodeOf]) rfl, writesCell_of_exec (exec_fromf64 rd hf)⟩⟩

end Sys2Proof.Machine
end

section
/-! PROOFS. Signed ordering: the flags of `CMP`, the six comparison operators read from them, and the same order as
the unsigned order with bit 23 inverted (45_compare.md R140 to R142). -/

namespace Sys2Proof.Machine
open Sys2Proof Sys2Proof.Safety

/-- Equality of the values is equality of the bytes (10_state.md R22). -/
theorem s24_eq_iff (a b : Cell24) : s24 a = s24 b ↔ a = b :=
  ⟨s24_injective, congrArg s24⟩

/-- Equality of the widened values is equality of the values (45_compare.md R140). -/
theorem a32_beq_iff (a b : Cell24) : (a32 a == a32 b) = true ↔ s24 a = s24 b := by
  rw [beq_iff_eq, ← BitVec.toInt_inj, a32_toInt, a32_toInt]

/-- Settles O42: each flag is one case of the order of the widened values, which is the order of the values. -/
theorem cmpWritesTheSignedOrder : Obligations.CmpWritesTheSignedOrder := by
  intro s ra rb hf
  exact ⟨encodes_of_fields (i := .cmp ra rb) rfl (by simp [opcodeOf, Nat.mul_comm]), _, exec_cmp ra rb hf,
    cellLt_iff _ _, a32_beq_iff _ _, cellLt_iff _ _, onlyOrder_setOrder s _ _ _⟩

/-- `<=` reads `LT` or `EQ` (45_compare.md R142). -/
theorem CompareOp.read_le_iff (f : Status) : CompareOp.le.read f = true ↔ f.lt = true ∨ f.eq = true :=
  Bool.or_eq_true_iff

/-- `>=` reads `GT` or `EQ` (45_compare.md R142). -/
theorem CompareOp.read_ge_iff (f : Status) : CompareOp.ge.read f = true ↔ f.gt = true ∨ f.eq = true :=
  Bool.or_eq_true_iff

/-- `!=` reads that `EQ` is clear (45_compare.md R142). -/
theorem CompareOp.read_ne_iff (f : Status) : CompareOp.ne.read f = true ↔ ¬ f.eq = true := by
  rw [CompareOp.read, Bool.not_eq_true', Bool.not_eq_true]

/-- Settles O43: `<=` and `>=` are the union of two of the three flags, `!=` the complement of one. -/
theorem comparisonOperatorsFromFlags : Obligations.ComparisonOperatorsFromFlags := by
  intro s ra rb hf a b
  obtain ⟨-, t, hexec, hlt, heq, hgt, -⟩ := cmpWritesTheSignedOrder s ra rb hf
  have hcells : t.status.eq = true ↔ s.getV ra = s.getV rb := heq.trans (s24_eq_iff _ _)
  exact ⟨t, hexec, hlt,
    (CompareOp.read_le_iff _).trans ((or_congr hlt heq).trans le_iff_lt_or_eq.symm), hgt,
    (CompareOp.read_ge_iff _).trans ((or_congr hgt (heq.trans eq_comm)).trans le_iff_lt_or_eq.symm), hcells,
    (CompareOp.read_ne_iff _).trans (not_congr hcells)⟩

/-- Inverting bit 23 of a pattern adds `2^23` to its signed value: the low 23 bits stay, and the sign bit counts the
other way (45_compare.md R140). -/
theorem toNat_xor_signBit (x : BitVec 24) : ((x ^^^ 0x800000).toNat : Int) = x.toInt + 8388608 := by
  have hlow : (x ^^^ 0x800000).toNat % 2 ^ 23 = x.toNat % 2 ^ 23 := by
    rw [BitVec.toNat_xor, Nat.xor_mod_two_pow]
    exact Nat.xor_zero _
  have hhigh : (x ^^^ 0x800000).toNat / 2 ^ 23 = x.toNat / 2 ^ 23 ^^^ 1 := by
    rw [BitVec.toNat_xor, Nat.xor_div_two_pow]
    rfl
  have hx := x.isLt
  have hval := BitVec.toInt_eq_toNat_cond x
  obtain hbit | hbit : x.toNat / 2 ^ 23 = 0 ∨ x.toNat / 2 ^ 23 = 1 := by omega
  · rw [hbit, Nat.zero_xor] at hhigh
    rw [if_pos (by omega)] at hval
    omega
  · rw [hbit, Nat.xor_self] at hhigh
    rw [if_neg (by omega)] at hval
    omega

/-- The order of the values is the unsigned order of the raw patterns with bit 23 inverted (45_compare.md R140). -/
theorem s24_lt_iff_xor_signBit (a b : Cell24) :
    s24 a < s24 b ↔ (u24 a ^^^ 0x800000).toNat < (u24 b ^^^ 0x800000).toNat := by
  rw [← Int.ofNat_lt, toNat_xor_signBit, toNat_xor_signBit, add_lt_add_iff_right, s24, s24]

/-- `MIN` is the least value (10_state.md R21). -/
theorem s24_minCell_le (c : Cell24) : s24 minCell ≤ s24 c := (s24_bounds c).1

/-- `MAX` is the greatest value (10_state.md R21). -/
theorem s24_le_maxCell (c : Cell24) : s24 c ≤ s24 maxCell := (s24_bounds c).2

/-- Settles O44: the flags are the signed order, put in its three other forms, and its two bounds. -/
theorem signedOrderByInvertedSignBit : Obligations.SignedOrderByInvertedSignBit := by
  intro s ra rb hf
  obtain ⟨-, t, hexec, hlt, heq, hgt, -⟩ := cmpWritesTheSignedOrder s ra rb hf
  refine ⟨t, hexec, hlt.trans (s24_lt_iff_xor_signBit _ _), ?widened, heq.trans (s24_eq_iff _ _), ?least, ?greatest⟩
  case widened => rw [a32_toInt, a32_toInt, hlt]
  case least =>
    intro hmin
    rw [← Bool.not_eq_true, hgt, hmin, not_lt]
    exact s24_minCell_le _
  case greatest =>
    intro hmax
    rw [← Bool.not_eq_true, hlt, hmax, not_lt]
    exact s24_le_maxCell _

end Sys2Proof.Machine
end

section
/-! PROOFS. Arithmetic: each result is `wrap24` of the exact integer result, the ring operations on the raw 24 bits, and
the division identity on the cells (46_arith.md R145 to R153). -/

namespace Sys2Proof.Machine
open Sys2Proof Sys2Proof.Safety

/-- The word of a format `DA` command (30_encoding.md R62). -/
theorem encodes_of_rd_ra {i : Instr} {rd ra : VIdx} {base : Nat} (hop : (opcodeOf i).toNat * 256 = base)
    (hx : fieldsOf i = (rd, ra, 0, 0)) : Encodes i (base + 64 * rd + 16 * ra) :=
  encodes_of_fields hx (by simp [hop, Nat.mul_comm])

/-- The word of a format `DAB` command (30_encoding.md R62). -/
theorem encodes_of_rd_ra_rb {i : Instr} {rd ra rb : VIdx} {base : Nat} (hop : (opcodeOf i).toNat * 256 = base)
    (hx : fieldsOf i = (rd, ra, rb, 0)) : Encodes i (base + (64 * rd + 16 * ra + 4 * rb)) :=
  encodes_of_fields hx (by rw [hop, Fin.val_zero]; omega)

theorem entersFault_of_exec {i : Instr} {s : State} {k : Cause}
    (h : exec i s = .next (s.enterFault k (encode i))) : EntersFault i s k :=
  ⟨_, h, faultEntered_enterFault s k _, rfl, rfl⟩

/-- A difference of integers, taken in bit vectors. -/
theorem ofInt_sub (n : Nat) (x y : Int) : BitVec.ofInt n (x - y) = BitVec.ofInt n x - BitVec.ofInt n y := by
  rw [Int.sub_eq_add_neg, BitVec.ofInt_add, BitVec.ofInt_neg, BitVec.sub_eq_add_neg]

/-- The raw bits of a cell are its value modulo `2^24` (00_scope.md R7). -/
theorem ofInt_s24_eq_u24 (c : Cell24) : BitVec.ofInt 24 (s24 c) = u24 c := BitVec.ofInt_toInt

/-- The raw bits of `wrap24` (00_scope.md R7). -/
theorem u24_wrap24 (z : Int) : u24 (wrap24 z) = BitVec.ofInt 24 z := u24_cellOf _

/-- Wrapping at 32 bits and then keeping 24 is wrapping at 24, because `2^24` divides `2^32` (46_arith.md R145). -/
theorem narrow32_ofInt (z : Int) : narrow32 (BitVec.ofInt 32 z) = wrap24 z := by
  rw [narrow32_eq_wrap24, BitVec.toInt_ofInt, wrap24_eq_iff]
  calc z.bmod (2 ^ 32) % 2 ^ 24 = z.bmod (2 ^ 32) % (2 ^ 32 : Nat) % 2 ^ 24 :=
        (Int.emod_emod_of_dvd _ (by decide)).symm
    _ = z % (2 ^ 32 : Nat) % 2 ^ 24 := by rw [Int.bmod_emod]
    _ = z % 2 ^ 24 := Int.emod_emod_of_dvd _ (by decide)

section Cells
variable (a b : Cell24)

/-- The widened cell is its value as a 32-bit integer (46_arith.md R145). -/
theorem a32_eq_ofInt : a32 a = BitVec.ofInt 32 (s24 a) := rfl

/-- `ADD`, `SUB`, `MUL` are the exact results modulo `2^24` (46_arith.md R146 to R148). -/
theorem addCell_eq_wrap24 : addCell a b = wrap24 (s24 a + s24 b) := by
  rw [addCell, a32_eq_ofInt, a32_eq_ofInt, ← BitVec.ofInt_add, narrow32_ofInt]

theorem subCell_eq_wrap24 : subCell a b = wrap24 (s24 a - s24 b) := by
  rw [subCell, a32_eq_ofInt, a32_eq_ofInt, ← ofInt_sub, narrow32_ofInt]

theorem mulCell_eq_wrap24 : mulCell a b = wrap24 (s24 a * s24 b) := by
  rw [mulCell, a32_eq_ofInt, a32_eq_ofInt, ← BitVec.ofInt_mul, narrow32_ofInt]

/-- `DIV` and `REM` are the quotient and the remainder modulo `2^24` (46_arith.md R149, R150). -/
theorem divCell_eq_wrap24 : divCell a b = wrap24 (tdivInt (s24 a) (s24 b)) := narrow32_ofInt _

theorem remCell_eq_wrap24 : remCell a b = wrap24 (tremInt (s24 a) (s24 b)) := narrow32_ofInt _

/-- `ADD`, `SUB`, `MUL`, `NEG` on the raw bits (46_arith.md R152). -/
theorem u24_addCell : u24 (addCell a b) = u24 a + u24 b := by
  rw [addCell_eq_wrap24, u24_wrap24, BitVec.ofInt_add, ofInt_s24_eq_u24, ofInt_s24_eq_u24]

theorem u24_subCell : u24 (subCell a b) = u24 a - u24 b := by
  rw [subCell_eq_wrap24, u24_wrap24, ofInt_sub, ofInt_s24_eq_u24, ofInt_s24_eq_u24]

theorem u24_mulCell : u24 (mulCell a b) = u24 a * u24 b := by
  rw [mulCell_eq_wrap24, u24_wrap24, BitVec.ofInt_mul, ofInt_s24_eq_u24, ofInt_s24_eq_u24]

/-- The complement plus one is the two's-complement negation (46_arith.md R151). -/
theorem u24_negCell : u24 (negCell a) = -u24 a := by
  rw [negCell, u24_cellOf, BitVec.neg_eq_not_add, ← BitVec.xor_allOnes]
  rfl

/-- `NEG` is the negated value modulo `2^24` (46_arith.md R151). -/
theorem negCell_eq_wrap24 : negCell a = wrap24 (-s24 a) :=
  u24_injective (by rw [u24_negCell, u24_wrap24, BitVec.ofInt_neg, ofInt_s24_eq_u24])

/-- Subtracting is adding the negation, `MIN` included (46_arith.md R152). -/
theorem addCell_negCell : addCell a (negCell b) = subCell a b :=
  u24_injective (by rw [u24_addCell, u24_negCell, u24_subCell, BitVec.sub_eq_add_neg])

theorem u24_eq_zero_iff : u24 a = 0 ↔ a = zeroCell :=
  ⟨fun h => u24_injective h, fun h => congrArg u24 h⟩

theorem s24_eq_zero_iff : s24 a = 0 ↔ a = zeroCell := s24_eq_iff a zeroCell

end Cells

/-- The quotient by signs and magnitudes (46_arith.md R153): a magnitude below the divisor's has the quotient 0,
every other quotient has the product of the signs. -/
theorem tdivInt_eq_sign_mul (a b : Int) :
    tdivInt a b = a.sign * b.sign * ((a.natAbs / b.natAbs : Nat) : Int) := by
  have habs : (tdivInt a b).natAbs = a.natAbs / b.natAbs := Int.natAbs_tdiv a b
  rw [← Int.sign_mul_natAbs (tdivInt a b), habs, tdivInt, Int.sign_tdiv]
  split
  case isTrue hlt => rw [Nat.div_eq_of_lt hlt, Nat.cast_zero, mul_zero, mul_zero]
  case isFalse => rfl

/-- The remainder of 46_arith.md R153 is that of truncated division. -/
theorem tremInt_eq_tmod (a b : Int) : tremInt a b = a.tmod b := (Int.tmod_def a b).symm

/-- The remainder is smaller than the divisor (46_arith.md R153). -/
theorem natAbs_tmod_lt (a : Int) {b : Int} (hb : b ≠ 0) : (a.tmod b).natAbs < b.natAbs := by
  rw [Int.natAbs_tmod]
  exact Nat.mod_lt _ (Int.natAbs_pos.mpr hb)

/-- The remainder is zero or has the sign of the dividend (46_arith.md R153). -/
theorem tmod_eq_zero_or_sign_eq (a b : Int) : a.tmod b = 0 ∨ (a.tmod b).sign = a.sign := by
  by_cases hdvd : b ∣ a
  · exact .inl (Int.tmod_eq_zero_of_dvd hdvd)
  · exact .inr (by rw [Int.sign_tmod, if_neg hdvd])

section Division
variable {a b : Cell24}

/-- The quotient of two cells is at most `MAX` but for `MIN / -1` (46_arith.md R149): a larger one would have the
magnitude of `MIN`, so the dividend is `MIN` and the divisor 1 or -1, and `MIN / 1` is negative. -/
theorem tdiv_s24_le (h : ¬(s24 a = -8388608 ∧ s24 b = -1)) : (s24 a).tdiv (s24 b) ≤ 8388607 := by
  by_contra hbig
  have hle := Int.natAbs_tdiv_le_natAbs (s24 a) (s24 b)
  obtain ⟨hmin, hmax⟩ := s24_bounds a
  have habs : (s24 a).natAbs / (s24 b).natAbs = (s24 a).natAbs :=
    (Int.natAbs_tdiv (s24 a) (s24 b)).symm.trans (by omega)
  obtain hzero | hone := Nat.div_eq_self.mp habs
  · omega
  · obtain hb | hb := Int.natAbs_eq_iff.mp hone
    · rw [hb, Nat.cast_one, Int.tdiv_one] at hbig
      omega
    · exact h ⟨by omega, hb⟩

/-- Only the quotient of `MIN / -1` does not fit in a cell (46_arith.md R149). -/
theorem s24_divCell (h : ¬(s24 a = -8388608 ∧ s24 b = -1)) : s24 (divCell a b) = (s24 a).tdiv (s24 b) := by
  have hle := Int.natAbs_tdiv_le_natAbs (s24 a) (s24 b)
  obtain ⟨hmin, hmax⟩ := s24_bounds a
  rw [divCell_eq_wrap24, tdivInt, s24_wrap24 (by omega) (tdiv_s24_le h)]

/-- Every remainder fits in a cell (46_arith.md R150). -/
theorem s24_remCell (hb : s24 b ≠ 0) : s24 (remCell a b) = (s24 a).tmod (s24 b) := by
  have hlt := natAbs_tmod_lt (s24 a) hb
  obtain ⟨hmin, hmax⟩ := s24_bounds b
  rw [remCell_eq_wrap24, tremInt_eq_tmod, s24_wrap24 (by omega) (by omega)]

/-- `MIN / -1` wraps to `MIN`, with remainder zero (46_arith.md R149, R150). -/
theorem divCell_min_neg_one (ha : s24 a = -8388608) (hb : s24 b = -1) : divCell a b = minCell := by
  rw [divCell_eq_wrap24, ha, hb]
  decide

theorem remCell_min_neg_one (ha : s24 a = -8388608) (hb : s24 b = -1) : remCell a b = zeroCell := by
  rw [remCell_eq_wrap24, ha, hb]
  decide

end Division

/-- Settles O45: each command is one write of its cell, which is `wrap24` of the exact result. -/
theorem addSubMulWrap : Obligations.AddSubMulWrap := fun _ rd ra rb hf =>
  ⟨⟨encodes_of_rd_ra_rb (by simp [opcodeOf]) rfl,
      writesCell_of_exec_eq (exec_add rd ra rb hf) (addCell_eq_wrap24 _ _)⟩,
    ⟨encodes_of_rd_ra_rb (by simp [opcodeOf]) rfl,
      writesCell_of_exec_eq (exec_sub rd ra rb hf) (subCell_eq_wrap24 _ _)⟩,
    ⟨encodes_of_rd_ra_rb (by simp [opcodeOf]) rfl,
      writesCell_of_exec_eq (exec_mul rd ra rb hf) (mulCell_eq_wrap24 _ _)⟩⟩

/-- Settles O46: both commands are fault entry on the zero divisor, and otherwise one write of the result, whose quotient
is the one by signs and magnitudes. -/
theorem divRemTruncateOrFault : Obligations.DivRemTruncateOrFault := by
  intro s rd ra rb hf a b q regs
  refine ⟨encodes_of_rd_ra_rb (by simp [opcodeOf]) rfl, encodes_of_rd_ra_rb (by simp [opcodeOf]) rfl, ?zero, ?nonzero⟩
  case zero =>
    intro hzero
    have hz := (u24_eq_zero_iff _).mpr hzero
    exact ⟨entersFault_of_exec (exec_div_zero rd ra rb hf hz), entersFault_of_exec (exec_rem_zero rd ra rb hf hz)⟩
  case nonzero =>
    intro hnonzero
    have hz := mt (u24_eq_zero_iff _).mp hnonzero
    have hq : tdivInt a b = q := tdivInt_eq_sign_mul a b
    exact ⟨writesCell_of_exec_eq (exec_div_nonzero rd ra rb hf hz) (by rw [divCell_eq_wrap24, hq]),
      writesCell_of_exec_eq (exec_rem_nonzero rd ra rb hf hz) (by rw [remCell_eq_wrap24, tremInt, hq])⟩

/-- Settles O47: the cells hold the quotient and the remainder of truncated division, but for the one quotient that
wraps. -/
theorem divisionIdentity : Obligations.DivisionIdentity := by
  intro s rd ra rb hf hb a b
  have hz : u24 (s.getV rb) ≠ 0 := mt (fun h => (s24_eq_zero_iff _).mpr ((u24_eq_zero_iff _).mp h)) hb
  refine ⟨_, _, exec_div_nonzero rd ra rb hf hz, exec_rem_nonzero rd ra rb hf hz, ?_⟩
  rw [State.getV_setV_same, State.getV_setV_same, s24_remCell hb]
  refine ⟨?identity, ?wrapped, natAbs_tmod_lt a hb, tmod_eq_zero_or_sign_eq a b⟩
  case identity =>
    intro hfits
    rw [s24_divCell hfits, Int.mul_tdiv_add_tmod]
  case wrapped =>
    rintro ⟨hmin, hneg⟩
    exact ⟨divCell_min_neg_one hmin hneg, remCell_min_neg_one hmin hneg⟩

/-- Settles O48: the complement plus one is the command's own cell, and it is the negated value modulo `2^24`. -/
theorem negWraps : Obligations.NegWraps := fun _ rd ra hf =>
  ⟨encodes_of_rd_ra (by simp [opcodeOf]) rfl,
    writesCell_of_exec_eq (exec_neg rd ra hf) (negCell_eq_wrap24 _), writesCell_of_exec (exec_neg rd ra hf)⟩

/-- Settles O49: each result's raw bits, and `ADD` reads the minuend unchanged because `NEG` wrote another cell. -/
theorem ringOperationsOnRawBits : Obligations.RingOperationsOnRawBits := by
  intro s rd ra rb hf x y
  refine ⟨_, _, _, _, exec_add rd ra rb hf, exec_sub rd ra rb hf, exec_mul rd ra rb hf, exec_neg rd ra hf, ?_⟩
  simp only [State.getV_setV_same]
  refine ⟨u24_addCell _ _, u24_subCell _ _, u24_mulCell _ _, u24_negCell _, fun re hre => ?_⟩
  refine ⟨_, (execSeq_of_next (exec_neg re rb hf) _).trans (exec_add rd ra re hf), ?_⟩
  rw [State.getV_setV_same, State.getV_setV_same, State.getV_setV_other _ _ hre.symm, addCell_negCell]

end Sys2Proof.Machine
end

section
/-! PROOFS. Bitwise logic and shifts: the byte commands on the raw 24 bits, the amount modulo 32, and the shifts as
multiplication and division by a power of two (47_bitwise_shift.md R160 to R168). -/

namespace Sys2Proof.Machine
open Sys2Proof Sys2Proof.Safety

/-- The second of two writes of one cell is the one that stays. -/
@[simp] theorem State.setV_setV (s : State) (i : VIdx) (c d : Cell24) : (s.setV i c).setV i d = s.setV i d := by
  simp [State.setV]

/-- Multiplying by a power of two, taken in bit vectors, is the left shift. -/
theorem ofInt_mul_two_pow (w : Nat) (z : Int) (n : Nat) : BitVec.ofInt w (z * 2 ^ n) = BitVec.ofInt w z <<< n := by
  have hpow : BitVec.ofInt w (2 ^ n) = BitVec.twoPow w n := by
    rw [← Nat.cast_two, ← Nat.cast_pow, BitVec.ofInt_natCast]
    exact BitVec.eq_of_toNat_eq (by rw [BitVec.toNat_ofNat, BitVec.toNat_twoPow])
  rw [BitVec.ofInt_mul, hpow, BitVec.mul_twoPow_eq_shiftLeft]

/-- The mask `-2^n` clears the low `n` bits, as the arithmetic right shift and the left shift back do. -/
theorem and_ofInt_neg_two_pow {w : Nat} (x : BitVec w) (n : Nat) :
    x &&& BitVec.ofInt w (-2 ^ n) = x.sshiftRight n <<< n := by
  have hmask : BitVec.ofInt w (-2 ^ n) = BitVec.allOnes w <<< n := by
    have hones : BitVec.ofInt w (-1) = BitVec.allOnes w := BitVec.ofInt_neg.trans BitVec.neg_one_eq_allOnes
    rw [← neg_one_mul, ofInt_mul_two_pow, hones]
  rw [hmask]
  apply BitVec.eq_of_getLsbD_eq
  intro i hi
  rw [BitVec.getLsbD_and, BitVec.getLsbD_shiftLeft, BitVec.getLsbD_shiftLeft, BitVec.getLsbD_sshiftRight]
  by_cases hlow : i < n
  · simp [hlow]
  · have hback : n + (i - n) = i := by omega
    have hsub : i - n < w := by omega
    simp [hlow, hback, hi, hsub]

section Cells
variable (a b : Cell24)

/-- `AND` on the raw bits (47_bitwise_shift.md R161). -/
theorem u24_bytewise_and : u24 (bytewise (· &&& ·) a b) = u24 a &&& u24 b := by
  have hbytes : (a.b2 ++ a.b1 ++ a.b0) &&& (b.b2 ++ b.b1 ++ b.b0)
      = (a.b2 &&& b.b2) ++ (a.b1 &&& b.b1) ++ (a.b0 &&& b.b0) := by
    rw [BitVec.and_append, BitVec.and_append]
  exact hbytes.symm

/-- `NOT` on the raw bits (47_bitwise_shift.md R164). -/
theorem u24_notCell : u24 (notCell a) = ~~~u24 a := by
  have hbytes : ~~~(a.b2 ++ a.b1 ++ a.b0) = (~~~a.b2) ++ (~~~a.b1) ++ (~~~a.b0) := by
    rw [BitVec.not_append, BitVec.not_append]
  have hbyte (x : Byte) : x ^^^ 0xFF = ~~~x := BitVec.xor_allOnes
  simp only [notCell, hbyte]
  exact hbytes.symm

/-- The complement of a value is its negation minus one (47_bitwise_shift.md R164). -/
theorem notCell_eq_wrap24 : notCell a = wrap24 (-s24 a - 1) :=
  u24_injective (by
    rw [u24_notCell, u24_wrap24, ofInt_sub, BitVec.ofInt_neg, ofInt_s24_eq_u24, BitVec.not_eq_neg_add]
    rfl)

/-- The amount used is the amount's value modulo 32 (47_bitwise_shift.md R165). -/
theorem amountMask5_eq_emod : amountMask5 b = (s24 b % 32).toNat := by
  rw [amountMask5, a32_eq_ofInt, BitVec.extractLsb'_toNat, BitVec.toNat_ofInt]
  omega

/-- The policy `mask5` of the shifts: the amount's value modulo 32 (47_bitwise_shift.md R165). -/
theorem shiftCell_shiftOor (shift : Cell24 → Nat → Cell24) :
    shiftCell Config.shiftOor shift a b = shift a (s24 b % 32).toNat := by
  rw [Config.shiftOor, shiftCell, amountMask5_eq_emod]

/-- The amount modulo 32 depends on the low byte only (47_bitwise_shift.md R165). -/
theorem amount_emod_eq_low_byte : (s24 b % 32).toNat = b.b0.toNat % 32 := by
  rw [s24_emod b (by decide), u24_toNat]
  omega

variable (n : Nat)

/-- `SHL` by `n` is multiplication by `2^n` modulo `2^24` (47_bitwise_shift.md R166). -/
theorem shlBy_eq_wrap24 : shlBy a n = wrap24 (s24 a * 2 ^ n) := by
  rw [shlBy, a32_eq_ofInt, ← ofInt_mul_two_pow, narrow32_ofInt]

/-- `SHR` by `n` is division by `2^n`, rounded down (47_bitwise_shift.md R167). -/
theorem shrBy_eq_wrap24 : shrBy a n = wrap24 (s24 a / 2 ^ n) := by
  rw [shrBy, narrow32_eq_wrap24, BitVec.toInt_sshiftRight, a32_toInt, Int.shiftRight_eq_div_pow, Nat.cast_pow,
    Nat.cast_ofNat]

/-- Multiplication by the cell of `2^n` is `SHL` by `n`, also where that cell is `MIN` or zero
(47_bitwise_shift.md R168). -/
theorem mulCell_two_pow : mulCell a (wrap24 (2 ^ n)) = shlBy a n :=
  u24_injective (by
    rw [u24_mulCell, u24_wrap24, shlBy_eq_wrap24, u24_wrap24, BitVec.ofInt_mul, ofInt_s24_eq_u24])

/-- The quotient rounded down always fits in a cell (47_bitwise_shift.md R167). -/
theorem s24_wrap24_ediv_two_pow : s24 (wrap24 (s24 a / 2 ^ n)) = s24 a / 2 ^ n := by
  have hone : (1 : Int) ≤ 2 ^ n := one_le_pow₀ (by decide)
  obtain ⟨hmin, hmax⟩ := s24_bounds a
  apply s24_wrap24
  · exact Int.le_ediv_of_mul_le (by omega) (by omega)
  · exact (Int.ediv_le_iff_le_mul (by omega)).mpr (by omega)

/-- `AND` with the cell of `-2^n` clears the low `n` bits of the value (47_bitwise_shift.md R168). -/
theorem bytewise_and_neg_two_pow :
    bytewise (· &&& ·) a (wrap24 (-2 ^ n)) = wrap24 (s24 a / 2 ^ n * 2 ^ n) := by
  have hshift : (u24 a).sshiftRight n = BitVec.ofInt 24 (s24 a / 2 ^ n) := by
    rw [BitVec.sshiftRight, ← s24, Int.shiftRight_eq_div_pow, Nat.cast_pow, Nat.cast_ofNat]
  apply u24_injective
  rw [u24_bytewise_and, u24_wrap24, u24_wrap24, and_ofInt_neg_two_pow, hshift, ofInt_mul_two_pow]

/-- `SHR` and then `SHL` by the same amount clear the low `n` bits of the value (47_bitwise_shift.md R168). -/
theorem shlBy_shrBy : shlBy (shrBy a n) n = wrap24 (s24 a / 2 ^ n * 2 ^ n) := by
  rw [shlBy_eq_wrap24, shrBy_eq_wrap24, s24_wrap24_ediv_two_pow]

end Cells

section Ready
variable {s : State} {rb : VIdx} {n : Nat}

/-- `SHL` by an amount whose value modulo 32 is `n` (47_bitwise_shift.md R166). -/
theorem exec_shl_amount (rd ra : VIdx) (hf : s.status.fault = false) (hn : (s24 (s.getV rb) % 32).toNat = n) :
    exec (.shl rd ra rb) s = .next (s.setV rd (shlBy (s.getV ra) n)) := by
  rw [exec_shl rd ra rb hf, shiftCell_shiftOor, hn]

/-- `SHR` by an amount whose value modulo 32 is `n` (47_bitwise_shift.md R167). -/
theorem exec_shr_amount (rd ra : VIdx) (hf : s.status.fault = false) (hn : (s24 (s.getV rb) % 32).toNat = n) :
    exec (.shr rd ra rb) s = .next (s.setV rd (shrBy (s.getV ra) n)) := by
  rw [exec_shr rd ra rb hf, shiftCell_shiftOor, hn]

/-- `SHL` in place of the cell written last, which is not the amount's. -/
theorem exec_shl_setV {rd : VIdx} (c : Cell24) (hne : rd ≠ rb) (hf : s.status.fault = false)
    (hn : (s24 (s.getV rb) % 32).toNat = n) :
    exec (.shl rd rd rb) (s.setV rd c) = .next (s.setV rd (shlBy c n)) := by
  rw [← State.getV_setV_other s c hne.symm] at hn
  rw [exec_shl_amount (s := s.setV rd c) rd rd hf hn, State.getV_setV_same, State.setV_setV]

end Ready

/-- Settles O50: each command is one write of its bytes, and the complement on the raw bits is `-A - 1`. -/
theorem bitwiseCommandsActBytewise : Obligations.BitwiseCommandsActBytewise := fun _ rd ra rb hf =>
  ⟨⟨encodes_of_rd_ra_rb (by simp [opcodeOf]) rfl, writesCell_of_exec (exec_and rd ra rb hf)⟩,
    ⟨encodes_of_rd_ra_rb (by simp [opcodeOf]) rfl, writesCell_of_exec (exec_or rd ra rb hf)⟩,
    ⟨encodes_of_rd_ra_rb (by simp [opcodeOf]) rfl, writesCell_of_exec (exec_xor rd ra rb hf)⟩,
    ⟨encodes_of_rd_ra (by simp [opcodeOf]) rfl, writesCell_of_exec (exec_not rd ra hf),
      writesCell_of_exec_eq (exec_not rd ra hf) (notCell_eq_wrap24 _)⟩⟩

/-- Settles O51: both shifts use the amount's value modulo 32, and each is one write of the exact product or quotient,
cut to 24 bits. -/
theorem shiftsMaskTheAmount : Obligations.ShiftsMaskTheAmount := fun _ rd ra rb hf =>
  ⟨amount_emod_eq_low_byte _,
    ⟨encodes_of_rd_ra_rb (by simp [opcodeOf]) rfl,
      writesCell_of_exec_eq (exec_shl_amount rd ra hf rfl) (shlBy_eq_wrap24 _ _)⟩,
    ⟨encodes_of_rd_ra_rb (by simp [opcodeOf]) rfl,
      writesCell_of_exec_eq (exec_shr_amount rd ra hf rfl) (shrBy_eq_wrap24 _ _), s24_wrap24_ediv_two_pow _ _⟩⟩

/-- Settles O52: the shift and the product are the same number modulo `2^24`, as are the two shifts and the masked
value; the second shift reads the amount unchanged because the first one wrote another cell. -/
theorem shiftLaws : Obligations.ShiftLaws := by
  intro s rd ra rb rc n hf hb
  refine ⟨?left, ?rightLeft⟩
  case left =>
    intro hle hc
    have hn : (s24 (s.getV rb) % 32).toNat = n := by omega
    rw [exec_shl_amount rd ra hf hn, exec_mul rd ra rc hf, hc, mulCell_two_pow]
  case rightLeft =>
    intro hle hne hc
    have hn : (s24 (s.getV rb) % 32).toNat = n := by omega
    rw [execSeq_of_next (exec_shr_amount rd ra hf hn), exec_shl_setV _ hne hf hn, exec_and rd ra rc hf, hc,
      shlBy_shrBy, bytewise_and_neg_two_pow]

end Sys2Proof.Machine
end

section
/-! PROOFS. Clamp, default value, copy and no-operation: the two outcomes of `CLAMP` by the order of its bounds, and its
laws (48_clamp_misc.md R171 to R176). -/

namespace Sys2Proof.Machine
open Sys2Proof Sys2Proof.Safety

/-- The word of a format `DABC` command (30_encoding.md R62). -/
theorem encodes_of_rd_ra_rb_rc {i : Instr} {rd ra rb rc : VIdx} {base : Nat}
    (hop : (opcodeOf i).toNat * 256 = base) (hx : fieldsOf i = (rd, ra, rb, rc)) :
    Encodes i (base + 64 * rd + 16 * ra + 4 * rb + rc) :=
  encodes_of_fields hx (by rw [hop]; omega)

/-- The test of `CLAMP` fails exactly where min <= max (48_clamp_misc.md R171). -/
theorem cellLt_eq_false_iff (a b : Cell24) : cellLt a b = false ↔ s24 b ≤ s24 a := by
  rw [← Bool.not_eq_true, cellLt_iff, not_lt]

section Cells
variable (a : Cell24) {lo hi : Cell24}

/-- The clamped cell by the order of the values (48_clamp_misc.md R171). -/
theorem clampCell_eq (lo hi : Cell24) :
    clampCell a lo hi = if s24 a < s24 lo then lo else if s24 a > s24 hi then hi else a := by
  simp only [clampCell, cellLt_iff, gt_iff_lt]

/-- The value of the clamped cell (48_clamp_misc.md R172). -/
theorem s24_clampCell (h : s24 lo ≤ s24 hi) :
    s24 (clampCell a lo hi) = max (s24 lo) (min (s24 a) (s24 hi)) := by
  rw [clampCell_eq]
  split
  · omega
  · split <;> omega

theorem le_s24_clampCell (h : s24 lo ≤ s24 hi) : s24 lo ≤ s24 (clampCell a lo hi) :=
  s24_clampCell a h ▸ le_max_left _ _

theorem s24_clampCell_le (h : s24 lo ≤ s24 hi) : s24 (clampCell a lo hi) ≤ s24 hi :=
  s24_clampCell a h ▸ max_le h (min_le_right _ _)

/-- A cell between the bounds is its own clamped cell (48_clamp_misc.md R172). -/
theorem clampCell_of_between (hlo : s24 lo ≤ s24 a) (hhi : s24 a ≤ s24 hi) : clampCell a lo hi = a := by
  rw [clampCell_eq, if_neg hlo.not_gt, if_neg hhi.not_gt]

end Cells

section Ready
variable {s : State} {rb rc : VIdx}

/-- `CLAMP` with min <= max, by the values of the bounds. -/
theorem exec_clamp_of_le (rd ra : VIdx) (hf : s.status.fault = false) (hle : s24 (s.getV rb) ≤ s24 (s.getV rc)) :
    exec (.clamp rd ra rb rc) s = .next (s.setV rd (clampCell (s.getV ra) (s.getV rb) (s.getV rc))) :=
  exec_clamp_ordered rd ra rb rc hf ((cellLt_eq_false_iff _ _).mpr hle)

/-- `CLAMP` of a cell in its own place, written last and between the bounds, leaves the state as it is: the bounds are
other cells, so they still read the same (48_clamp_misc.md R172). -/
theorem exec_clamp_setV_between {rd : VIdx} {c : Cell24} (hf : s.status.fault = false) (hb : rd ≠ rb) (hc : rd ≠ rc)
    (hlo : s24 (s.getV rb) ≤ s24 c) (hhi : s24 c ≤ s24 (s.getV rc)) :
    exec (.clamp rd rd rb rc) (s.setV rd c) = .next (s.setV rd c) := by
  have hmin : (s.setV rd c).getV rb = s.getV rb := State.getV_setV_other s c hb.symm
  have hmax : (s.setV rd c).getV rc = s.getV rc := State.getV_setV_other s c hc.symm
  have hle : s24 ((s.setV rd c).getV rb) ≤ s24 ((s.setV rd c).getV rc) := by
    rw [hmin, hmax]
    exact hlo.trans hhi
  rw [exec_clamp_of_le (s := s.setV rd c) rd rd hf hle, hmin, hmax, State.getV_setV_same,
    clampCell_of_between c hlo hhi, State.setV_setV]

end Ready

/-- Settles O53: the order of the bounds decides between fault entry and one write of the chosen cell. -/
theorem clampSelectsOrFaults : Obligations.ClampSelectsOrFaults := by
  intro s rd ra rb rc hf a lo hi
  refine ⟨encodes_of_rd_ra_rb_rc (by simp [opcodeOf]) rfl, ?unordered, ?ordered⟩
  case unordered =>
    intro hgt
    exact entersFault_of_exec (exec_clamp_unordered rd ra rb rc hf ((cellLt_iff _ _).mpr hgt))
  case ordered =>
    intro hle
    exact writesCell_of_exec_eq (exec_clamp_of_le rd ra hf hle) (clampCell_eq _ _ _)

/-- Settles O54: the clamped cell lies between the bounds, and a cell that does is clamped to itself. -/
theorem clampLaws : Obligations.ClampLaws := by
  intro s rd ra rb rc hf hle
  have hlo := le_s24_clampCell (s.getV ra) hle
  have hhi := s24_clampCell_le (s.getV ra) hle
  refine ⟨_, exec_clamp_of_le rd ra hf hle, ?_⟩
  rw [State.getV_setV_same]
  exact ⟨hlo, hhi, s24_clampCell _ hle, fun hb hc => exec_clamp_setV_between hf hb hc hlo hhi⟩

/-- Settles O55: two single writes with their frames, and the command whose word and effect are nothing. -/
theorem zeroMovNop : Obligations.ZeroMovNop := fun _ rd ra hf =>
  ⟨⟨encodes_of_rd (by simp [opcodeOf]) rfl, writesCell_of_exec (exec_zero rd hf)⟩,
    ⟨encodes_of_rd_ra (by simp [opcodeOf]) rfl, writesCell_of_exec (exec_mov rd ra hf)⟩,
    ⟨encodes_of_fields (i := .nop) rfl (by simp [opcodeOf]), exec_nop hf⟩⟩

end Sys2Proof.Machine
end

section
/-! PROOFS. The decimal text of a cell: the text of the magnitude reads back in base ten, has no leading zero and is
short, so the text with its sign tells the cells apart (48_clamp_misc.md R173). -/

namespace Sys2Proof.Machine
open Sys2Proof

/-- The text of a cell is its sign and the text of its magnitude. -/
theorem decChars_eq (c : Cell24) :
    decChars c = if s24 c < 0 then '-' :: natChars (s24 c).natAbs else natChars (s24 c).natAbs := by
  unfold decChars natChars
  rcases lt_trichotomy (s24 c) 0 with h | h | h
  · simp [h, h.ne, h.not_gt]
  · simp [h]
  · simp [h, h.ne', h.not_gt]

/-- The digits are the ten characters of base ten; a sign is none of them. -/
theorem IsDigit.mem {c : Char} (hc : IsDigit c) : c ∈ ['0', '1', '2', '3', '4', '5', '6', '7', '8', '9'] := by
  obtain ⟨d, hd, rfl⟩ := hc
  revert d
  decide

theorem IsDigit.ne_minus {c : Char} (hc : IsDigit c) : c ≠ '-' := by
  rintro rfl
  exact absurd hc.mem (by decide)

theorem IsDigit.ne_plus {c : Char} (hc : IsDigit c) : c ≠ '+' := by
  rintro rfl
  exact absurd hc.mem (by decide)

theorem digitOf_toNat {d : Nat} (hd : d < 10) : (digitOf d).toNat - 48 = d := by
  revert d
  decide

/-- On digits the assembler's reader adds up the values of the characters. -/
theorem parseDigits_eq_foldl {l : List Char} (hl : ∀ c ∈ l, IsDigit c) (n : Nat) :
    parseDigits 10 l n = some (l.foldl (fun n d => 10 * n + (d.toNat - 48)) n) := by
  induction l generalizing n with
  | nil => rfl
  | cons c l ih =>
    obtain ⟨⟨d, hd, rfl⟩, hrest⟩ := List.forall_mem_cons.mp hl
    obtain ⟨hvalue, -⟩ := digitOf_spec hd
    simp only [parseDigits, hvalue, hd, if_true, ih hrest, List.foldl_cons, digitOf_toNat hd, Nat.mul_comm n 10]

/-- The text of a number reads back in base ten as the number. -/
theorem foldl_natChars (n : Nat) : (natChars n).foldl (fun n d => 10 * n + (d.toNat - 48)) 0 = n :=
  Option.some.inj <| (parseDigits_eq_foldl (fun _ => isDigit_of_mem_natChars) 0).symm.trans (parseDigits_natChars n)

theorem natChars_injective : Function.Injective natChars := fun m n h => by
  rw [← foldl_natChars m, h, foldl_natChars]

/-- The first digit of a number that is not zero is not zero. -/
theorem head?_digitsFuel {fuel m : Nat} (hm : m ≤ fuel) (hpos : m ≠ 0) (acc : List Char) :
    ∃ d < 10, d ≠ 0 ∧ (digitsFuel fuel m acc).head? = some (digitOf d) := by
  induction fuel generalizing m acc with
  | zero => exact absurd (Nat.le_zero.mp hm) hpos
  | succ fuel ih =>
    rw [digitsFuel, if_neg hpos]
    by_cases hlast : m / 10 = 0
    · refine ⟨m % 10, Nat.mod_lt m (by decide), by omega, ?_⟩
      rw [hlast]
      cases fuel <;> simp [digitsFuel]
    · exact ih (by omega) hlast _

/-- The text of a number starts with a zero only for the number zero. -/
theorem natChars_eq_zero_of_head? {n : Nat} (h : (natChars n).head? = some '0') : natChars n = ['0'] := by
  by_cases hn : n = 0
  · rw [natChars, if_pos hn]
  · rw [natChars, if_neg hn] at h
    obtain ⟨d, hd, hne, hhead⟩ := head?_digitsFuel le_rfl hn []
    have hzero : ∀ d < 10, digitOf d = '0' → d = 0 := by decide
    exact absurd (hzero d hd (Option.some.inj (hhead.symm.trans h))) hne

/-- A number below `10^k` has at most `k` digits. -/
theorem length_digitsFuel_le (fuel : Nat) {k m : Nat} (hm : m < 10 ^ k) (acc : List Char) :
    (digitsFuel fuel m acc).length ≤ k + acc.length := by
  induction fuel generalizing k m acc with
  | zero => exact Nat.le_add_left _ _
  | succ fuel ih =>
    rw [digitsFuel]
    split
    · exact Nat.le_add_left _ _
    · next hpos =>
      cases k with
      | zero => omega
      | succ k =>
        have hdiv : m / 10 < 10 ^ k := Nat.div_lt_of_lt_mul (by rwa [← Nat.pow_succ'])
        have hlen := ih hdiv (digitOf (m % 10) :: acc)
        rw [List.length_cons] at hlen
        omega

theorem length_natChars_le {k n : Nat} (hk : 0 < k) (hn : n < 10 ^ k) : (natChars n).length ≤ k := by
  unfold natChars
  split
  · exact hk
  · exact length_digitsFuel_le n hn []

/-- The magnitude of a cell has at most seven digits (10_state.md R21). -/
theorem length_natChars_natAbs_s24 (c : Cell24) : (natChars (s24 c).natAbs).length ≤ 7 := by
  have hbounds := s24_bounds c
  exact length_natChars_le (by decide) (by omega)

theorem minus_notMem_natChars (n : Nat) : '-' ∉ natChars n := fun h => (isDigit_of_mem_natChars h).ne_minus rfl

theorem plus_notMem_natChars (n : Nat) : '+' ∉ natChars n := fun h => (isDigit_of_mem_natChars h).ne_plus rfl

/-- A text with a minus is no text without one, and after the sign the magnitude is read. -/
theorem decChars_injective : Function.Injective decChars := by
  intro a b h
  rw [decChars_eq, decChars_eq] at h
  apply s24_injective
  split at h <;> split at h
  · have hmag := natChars_injective (List.cons.inj h).2
    omega
  · exact absurd (h ▸ List.mem_cons_self) (minus_notMem_natChars _)
  · exact absurd (h ▸ List.mem_cons_self) (minus_notMem_natChars _)
  · have hmag := natChars_injective h
    omega

/-- Settles O57: the text is the sign and the digits of the magnitude. -/
theorem decimalTextIsInjective : Obligations.DecimalTextIsInjective := by
  refine ⟨fun a b h => decChars_injective (String.ofList_injective h), fun c => ⟨rfl, ?length, ?plus, ?digits⟩⟩
  case length =>
    have hlen := length_natChars_natAbs_s24 c
    rw [decChars_eq]
    split
    · exact Nat.succ_le_succ hlen
    · exact hlen.trans (by decide)
  case plus =>
    have hplus := plus_notMem_natChars (s24 c).natAbs
    rw [decChars_eq]
    split
    · simpa using hplus
    · exact hplus
  case digits =>
    exact ⟨natChars (s24 c).natAbs, decChars_eq c, natChars_ne_nil _, fun d hd => (isDigit_of_mem_natChars hd).mem,
      foldl_natChars _, natChars_eq_zero_of_head?⟩

end Sys2Proof.Machine
end

section
/-! PROOFS. Faults, the freeze and reset, step by step: a fault is the record of a command word and nothing else, a
faulted unit ignores every move but reset, and reset clears it (60_exceptions.md R180 to R187; 70_reset_and_hazards.md
R200, R208). -/

namespace Sys2Proof.Machine
open Sys2Proof Sys2Proof.Safety

/-- The command can raise a fault with this cause (60_exceptions.md R180, R187). -/
def CanRaise (i : Instr) (k : Cause) : Prop :=
  (k = .divideByZero ∧ ∃ rd ra rb, i = .div rd ra rb ∨ i = .rem rd ra rb) ∨
  (k = .clampOrder ∧ ∃ rd ra rb rc, i = .clamp rd ra rb rc)

theorem CanRaise.ne_none {i : Instr} {k : Cause} (h : CanRaise i k) : k ≠ .none := by
  rintro rfl
  rcases h with ⟨hk, -⟩ | ⟨hk, -⟩ <;> cases hk

/-- The record of the fault is as before (10_state.md R29, R31). -/
def SameRecord (s t : State) : Prop :=
  t.status.fault = s.status.fault ∧ t.status.cause = s.status.cause ∧ t.fcmd = s.fcmd

/-- A command's effect keeps the record, or it is the record of a fault that the command can raise. -/
theorem effect_record {i : Instr} {s t : State} (he : Effect i s t) :
    SameRecord s t ∨ ∃ k, CanRaise i k ∧ t = s.enterFault k (encode i) := by
  cases he with
  | divideByZero rd ra rb hi => exact .inr ⟨.divideByZero, .inl ⟨rfl, rd, ra, rb, hi⟩, rfl⟩
  | clampOrder rd ra rb rc hi => exact .inr ⟨.clampOrder, .inr ⟨rfl, rd, ra, rb, rc, hi⟩, rfl⟩
  | _ => exact .inl ⟨rfl, rfl, rfl⟩

/-- A word that fails the check of WellFormed.lean is no command (30_encoding.md R65). -/
theorem decode_eq_none_iff {w : CmdWord} : decode w = none ↔ wellFormedWord w = false := by
  rw [← decodedWordsAreWellFormedWords w, Option.isSome_eq_false_iff, Option.isNone_iff_eq_none]

section Ready
variable {s t : State} (hf : s.status.fault = false)
include hf

/-- An illegal word enters the fault `IllegalCommand` (60_exceptions.md R181). -/
theorem makeMove_illegal {w : CmdWord} (hw : decode w = none) :
    makeMove (.cmd w) s = .next (s.enterFault .illegalCommand w) := by
  cases hd : decodeWord w with
  | command i => simp [decode, hd] at hw
  | illegal why => simp [makeMove, issueWord, hf, hd]

/-- A move that faults a unit was a command word, and all it did is fault entry with that word
(60_exceptions.md R182). -/
theorem makeMove_raises {m : HostMove} (h : makeMove m s = .next t) (ht : t.status.fault = true) :
    ∃ k w, k ≠ .none ∧ m = .cmd w ∧ t = s.enterFault k w := by
  have hready : t.status.fault ≠ s.status.fault := by simp [hf, ht]
  rcases makeMove_next h with ⟨hs, -⟩ | ⟨-, rfl⟩ | ⟨-, hmove⟩
  · exact absurd hs (by simp [hf])
  · cases ht
  · rcases hmove with ⟨_, _, _, -, rfl⟩ | ⟨_, -, rfl⟩ | ⟨w, rfl, -, rfl⟩ | ⟨w, i, rfl, hd, hexec⟩
    · exact absurd rfl hready
    · exact absurd rfl hready
    · exact ⟨.illegalCommand, w, by decide, rfl, rfl⟩
    · rcases effect_record (effect_of_exec hexec) with ⟨hkept, -⟩ | ⟨k, hk, rfl⟩
      · exact absurd hkept hready
      · exact ⟨k, w, hk.ne_none, rfl, by rw [encode_of_decode hd]⟩

/-- A step that faults a unit ran a command word, and all it did to the unit is fault entry with that word. -/
theorem step_raises (h : step s = .next t) (ht : t.status.fault = true) :
    ∃ k w, k ≠ .none ∧ s.program[s.pc]? = some (.cmd w) ∧ t = { s.enterFault k w with pc := s.pc + 1 } := by
  obtain ⟨m, u, hm, hmove, rfl⟩ := step_next h
  obtain ⟨k, w, hk, rfl, rfl⟩ := makeMove_raises hf hmove ht
  exact ⟨k, w, hk, hm, rfl⟩

end Ready

/-- A faulted unit ignores every move but reset (60_exceptions.md R183). -/
theorem makeMove_faulted {m : HostMove} {s : State} (hf : s.status.fault = true) (hm : m ≠ .reset) :
    makeMove m s = .next s := by
  cases m with
  | reset => exact absurd rfl hm
  | cmd w => simp [makeMove, issueWord, hf]
  | hostWriteT y0 y1 y2 => simp [makeMove, hostWrite, hf]
  | hostWriteW x => simp [makeMove, hostWrite, hf]

/-- A step of a faulted unit resets it, or only moves on to the next move (60_exceptions.md R183, R184). -/
theorem step_faulted {s t : State} (hf : s.status.fault = true) (h : step s = .next t) :
    (s.program[s.pc]? = some .reset ∧ t = { s.resetUnit with pc := s.pc + 1 }) ∨
    (s.program[s.pc]? ≠ some .reset ∧ t = { s with pc := s.pc + 1 }) := by
  obtain ⟨m, u, hm, hmove, rfl⟩ := step_next h
  by_cases hreset : m = .reset
  · subst hreset
    cases hmove
    exact .inl ⟨hm, rfl⟩
  · rw [makeMove_faulted hf hreset] at hmove
    cases hmove
    exact .inr ⟨by simpa [hm] using hreset, rfl⟩

/-- Settles O6: the word is no command, so the move is fault entry. -/
theorem illegalWordRaisesIllegalCommand : Obligations.IllegalWordRaisesIllegalCommand := by
  intro s w hm hf hw
  have hmove := makeMove_illegal hf (decode_eq_none_iff.mpr hw)
  exact ⟨_, step_of_move_pc hm hmove, faultEntered_enterFault s .illegalCommand w, rfl, rfl⟩

/-- Settles O7: a step that faults the unit is fault entry with the word at `pc`. -/
theorem faultEntryIsPrecise : Obligations.FaultEntryIsPrecise := by
  intro s t w hm hf hstep ht
  obtain ⟨k, w', hk, hm', rfl⟩ := step_raises hf hstep ht
  obtain rfl : w = w' := HostMove.cmd.inj (Option.some.inj (hm.symm.trans hm'))
  exact ⟨k, hk, faultEntered_enterFault s k w, rfl, rfl⟩

/-- Settles O8: the ignored move answers the state it was given. -/
theorem faultedUnitIgnoresMoves : Obligations.FaultedUnitIgnoresMoves := by
  intro s m hm hreset hf
  exact ⟨_, step_of_move_pc hm (makeMove_faulted hf hreset), ⟨fun _ => rfl, fun _ => rfl, rfl, rfl, rfl⟩, rfl, rfl⟩

/-- Settles O9: a step of a faulted unit is the reset of it or keeps its record. -/
theorem onlyResetLeavesTheFaultedState : Obligations.OnlyResetLeavesTheFaultedState := by
  intro s t hf hstep
  rcases step_faulted hf hstep with ⟨hreset, rfl⟩ | ⟨hother, rfl⟩
  · exact ⟨fun _ => hreset, fun _ => ⟨rfl, rfl, rfl⟩, fun hne => absurd hreset hne⟩
  · exact ⟨fun hready => absurd (hf.symm.trans hready) (by decide), fun h => absurd h hother, fun _ => ⟨rfl, rfl⟩⟩

/-- Settles O21: every command has an effect, which keeps the record or is a fault that the command can raise. -/
theorem onlyDivRemClampFault : Obligations.OnlyDivRemClampFault := by
  intro i s hf
  obtain ⟨t, hexec, he⟩ := exec_effect_ready i hf
  refine ⟨t, hexec, ?_⟩
  rcases effect_record he with ⟨hfault, hcause, hfcmd⟩ | ⟨k, hk, rfl⟩
  · exact ⟨fun ht => absurd hf (by simp [← hfault, ht]), fun _ => ⟨hcause, hfcmd⟩⟩
  · exact ⟨fun _ => hk, fun ht => nomatch ht⟩

/-- Settles O11: the move answers the unit with its reset values, whatever it held. -/
theorem resetMoveClearsTheUnit : Obligations.ResetMoveClearsTheUnit := by
  intro s hm
  obtain ⟨hcells, hlanes, hwide, hstatus, hfcmd, hwire⟩ := resetValues
  exact ⟨_, step_of_move_pc hm rfl, hcells, hlanes, hwide, hstatus, hfcmd, hwire, rfl, rfl⟩

/-- No move is left exactly when the run has ended (70_reset_and_hazards.md R208). -/
theorem currentMove_eq_none_iff (s : State) : currentMove s = none ↔ RunEnded s := List.getElem?_eq_none_iff

/-- Settles O17: where no move is left, `step` has none to make. -/
theorem endedRunIsRefusedByName : Obligations.EndedRunIsRefusedByName := by
  intro s hended
  rw [step, (currentMove_eq_none_iff s).mpr hended]

end Sys2Proof.Machine
end

section
/-! PROOFS. Runs: every move that is left is made, and a run that stands in a fault shows the move that raised it
(70_reset_and_hazards.md R208; 60_exceptions.md R182, R183). -/

namespace Sys2Proof.Machine
open Sys2Proof Sys2Proof.Safety

section Core
variable {M : Host.Core} {n : Nat} {s t : M.State}

/-- The first step of a run. -/
theorem run_succ_iff_first : M.run (n + 1) s = .next t ↔ ∃ u, M.step s = .next u ∧ M.run n u = .next t := by
  rw [Host.Core.run]
  cases M.step s with
  | next u => exact ⟨fun h => ⟨u, rfl, h⟩, fun ⟨_, hu, h⟩ => by cases hu; exact h⟩
  | fault r => exact ⟨nofun, fun ⟨_, hu, _⟩ => nomatch hu⟩
  | refused r => exact ⟨nofun, fun ⟨_, hu, _⟩ => nomatch hu⟩

/-- The last step of a run. -/
theorem run_succ_iff_last : M.run (n + 1) s = .next t ↔ ∃ u, M.run n s = .next u ∧ M.step u = .next t := by
  induction n generalizing s with
  | zero =>
    rw [run_succ_iff_first]
    constructor
    · rintro ⟨u, hstep, hrun⟩
      cases hrun
      exact ⟨s, rfl, hstep⟩
    · rintro ⟨u, hrun, hstep⟩
      cases hrun
      exact ⟨t, hstep, rfl⟩
  | succ n ih =>
    rw [run_succ_iff_first]
    constructor
    · rintro ⟨v, hfirst, hrest⟩
      obtain ⟨u, hrun, hlast⟩ := ih.mp hrest
      exact ⟨u, run_succ_iff_first.mpr ⟨v, hfirst, hrun⟩, hlast⟩
    · rintro ⟨u, hrun, hlast⟩
      obtain ⟨v, hfirst, hrest⟩ := run_succ_iff_first.mp hrun
      exact ⟨v, hfirst, ih.mpr ⟨u, hrest, hlast⟩⟩

end Core

/-- The last step of a run of this machine. -/
theorem run_succ_iff {n : Nat} {s t : State} :
    core.run (n + 1) s = .next t ↔ ∃ u : State, core.run n s = .next u ∧ step u = .next t := run_succ_iff_last

/-- The host's list of moves stands and its position counts the steps (10_state.md R28). -/
theorem run_host {n : Nat} {s t : State} (h : core.run n s = .next t) : t.program = s.program ∧ t.pc = s.pc + n := by
  induction n generalizing t with
  | zero =>
    cases h
    exact ⟨rfl, rfl⟩
  | succ n ih =>
    obtain ⟨u, hrun, hstep⟩ := run_succ_iff.mp h
    obtain ⟨hprogram, hpc⟩ := ih hrun
    obtain ⟨m, v, -, hmove, rfl⟩ := step_next hstep
    obtain ⟨hvprogram, hvpc⟩ := makeMove_keeps_host hmove
    exact ⟨hvprogram.trans hprogram, by rw [hvpc, hpc, Nat.add_assoc]⟩

/-- A run answers for as many steps as moves are left (70_reset_and_hazards.md R208). -/
theorem run_answers {n : Nat} {s : State} (h : s.pc + n ≤ s.program.length) :
    ∃ t : State, core.run n s = .next t := by
  induction n with
  | zero => exact ⟨s, rfl⟩
  | succ n ih =>
    obtain ⟨u, hrun⟩ := ih (by omega)
    obtain ⟨hprogram, hpc⟩ := run_host hrun
    obtain ⟨t, hstep, -⟩ := everyMoveCompletes u (by rw [hprogram, hpc]; omega)
    exact ⟨t, run_succ_iff.mpr ⟨u, hrun, hstep⟩⟩

/-- The run from `s` to `t` faulted at its move `k`: the moves before it ran to a unit that is not faulted, the move is a
command word, `t` is that unit after fault entry, and no reset came since. -/
def RaisedAt (s t : State) (k : Nat) : Prop :=
  ∃ u c w, core.run k s = .next u ∧ u.status.fault = false ∧ s.program[s.pc + k]? = some (.cmd w) ∧ c ≠ .none ∧
    t = { u.enterFault c w with pc := t.pc } ∧ ∀ j, s.pc + k < j → j < t.pc → s.program[j]? ≠ some .reset

/-- A run from a unit that is not faulted to one that is shows the move that raised the fault: the last step raised it,
or was ignored. -/
theorem raisedAt_of_run {n : Nat} {s t : State} (hs : s.status.fault = false) (h : core.run n s = .next t)
    (ht : t.status.fault = true) : ∃ k, RaisedAt s t k := by
  induction n generalizing t with
  | zero =>
    cases h
    exact absurd (hs.symm.trans ht) (by decide)
  | succ n ih =>
    obtain ⟨u, hrun, hstep⟩ := run_succ_iff.mp h
    obtain ⟨hprogram, hpc⟩ := run_host hrun
    cases hu : u.status.fault with
    | false =>
      obtain ⟨c, w, hc, hm, rfl⟩ := step_raises hu hstep ht
      rw [hprogram, hpc] at hm
      exact ⟨n, u, c, w, hrun, hu, hm, hc, rfl, fun j hlo (hhi : j < u.pc + 1) => by omega⟩
    | true =>
      rcases step_faulted hu hstep with ⟨-, rfl⟩ | ⟨hother, rfl⟩
      · cases ht
      · obtain ⟨k, v, c, w, hv, hready, hm, hc, hrecord, hreset⟩ := ih hrun hu
        refine ⟨k, v, c, w, hv, hready, hm, hc, ?_, fun j hlo hhi => ?_⟩
        · rw [hrecord]
        · rcases Nat.lt_succ_iff_lt_or_eq.mp hhi with hlt | rfl
          · exact hreset j hlo hlt
          · rwa [hprogram] at hother

/-- At the end of the program no later move is left, so no reset follows. -/
theorem faultedAt_of_raisedAt {s t : State} {k : Nat} (h : RaisedAt s t k) (hend : s.program.length ≤ t.pc) :
    FaultedAt s t (s.pc + k) := by
  obtain ⟨u, c, w, hrun, hready, hm, hc, hrecord, hreset⟩ := h
  have hentered : FaultEntered c w u t := hrecord ▸ faultEntered_enterFault u c w
  have hcause : t.status.cause = c := congrArg (·.status.cause) hrecord
  have hword : t.fcmd = w := congrArg (·.fcmd) hrecord
  refine ⟨u, Nat.le_add_right _ _, by rwa [Nat.add_sub_cancel_left], (run_host hrun).2, hready, ?_⟩
  rw [hcause, hword]
  refine ⟨hm, hc, hentered, fun j hj => ?_⟩
  by_cases hlt : j < t.pc
  · exact hreset j hj hlt
  · rw [List.getElem?_eq_none (by omega)]
    nofun

/-- Without a reset a fault stays to the end of the run, so a run that ends not faulted was not faulted before
(60_exceptions.md R184). -/
theorem ready_before_of_run {k m : Nat} {s u t : State} (hno : ∀ j, s.pc ≤ j → s.program[j]? ≠ some .reset)
    (hu : core.run k s = .next u) (h : core.run (k + m) s = .next t) (ht : t.status.fault = false) :
    u.status.fault = false := by
  induction m generalizing t with
  | zero =>
    cases hu.symm.trans h
    exact ht
  | succ m ih =>
    obtain ⟨v, hrun, hstep⟩ := run_succ_iff.mp h
    obtain ⟨hprogram, hpc⟩ := run_host hrun
    refine ih hrun (Bool.eq_false_iff.mpr fun hv => hno v.pc (by omega) ?_)
    obtain ⟨hreset, -⟩ := onlyResetLeavesTheFaultedState v t hv hstep
    rw [← hprogram, hreset ht]

/-- Settles O16: the moves left are made, the fault at the end was raised by the run, and no fault went away without a
reset. -/
theorem runsOfFiniteProgramsEnd : Obligations.RunsOfFiniteProgramsEnd := by
  intro s hle
  obtain ⟨t, hrun⟩ := run_answers (n := s.program.length - s.pc) (s := s) (by omega)
  obtain ⟨hprogram, hpc⟩ := run_host hrun
  have hend : t.pc = t.program.length := by rw [hprogram]; omega
  refine ⟨t, hrun, hend, hprogram, ?ends, ?fault, ?well⟩
  case ends =>
    cases ht : t.status.fault with
    | false => exact .inl ⟨hend.ge, ht⟩
    | true => exact .inr ⟨hend.ge, ht⟩
  case fault =>
    rintro hs ⟨-, ht⟩
    obtain ⟨k, hk⟩ := raisedAt_of_run hs hrun ht
    exact ⟨s.pc + k, faultedAt_of_raisedAt hk (hprogram ▸ hend.ge)⟩
  case well =>
    rintro ⟨-, ht⟩ hno k u hk hu
    rw [← Nat.add_sub_cancel' hk] at hrun
    exact ready_before_of_run hno hu hrun ht

end Sys2Proof.Machine
end
